-- ==== Sys2Proof/Word.lean ====
section
/-! DEFINITION. The bit and the bit sequences of the engine (spec 00_scope.md R9).

Index `i` of a sequence of the spec is bit `i` of the bit vector: `X[i]` is `X.getLsbD i`.
The registers are bit vectors because the spec shifts and exclusive-ORs them; no arithmetic
with a carry is ever done on one (spec 40_core_clock.md R92). -/

namespace Sys2Proof

/-- One bit: `false` is 0 and `true` is 1. `^^` is the spec's `^` and `&&` its `&` (R11). -/
abbrev Bit := Bool

/-- A state array of 128 bits: `L` or `N` (10_state.md R21, R22). -/
abbrev Reg128 := BitVec 128

/-- A MAC register of 32 bits: `A` or `R` (10_state.md R23, R24). -/
abbrev Reg32 := BitVec 32

/-- The key operand, `key[i]` = bit `i` (30_encoding.md R64). -/
abbrev Key := BitVec 128

/-- The IV operand, `iv[i]` = bit `i` (30_encoding.md R64). -/
abbrev IV := BitVec 96

/-- The command word `CW[2:0]` (30_encoding.md R62). -/
abbrev CommandWord := BitVec 3

/-- A byte of the host's buffer (20_memory.md R43); the engine has no byte-wide path. -/
abbrev Byte := BitVec 8

end Sys2Proof
end

