-- ==== Sys2Proof/Machine/Params.lean ====
section
/-! DEFINITION. The fixed parameters of the engine (spec 00_scope.md R6). The widths 128, 128, 32,
32, 96 are in the types. -/

namespace Sys2Proof.Machine

/-- `N_DISCARD`: core clock steps of initialisation whose output is discarded (R6, R105;
conflict C1). DEDUCED, log 9. -/
def nDiscard : Nat := 0

/-- How many output bits seed the accumulator: half of `N_SEED = 64` (R6, R106). -/
def accSeedSteps : Nat := 32

/-- How many output bits seed the authentication shift register: the other half of `N_SEED`. -/
def srSeedSteps : Nat := 32

/-- `PAD`: 31 ones, then one zero, the LFSR's bits 96 to 127 after loading (R6, R101). -/
def pad : BitVec 32 := 0x7fffffff#32

/-- `AUTH_SELECT`: the IV bit that enables authentication (R6, R102). -/
def authSelect : Nat := 0

/-- `CLOCKS_PER_BIT`: core clock steps per emitted keystream bit (R6, R116). -/
def clocksPerBit (auth : Bit) : Nat := if auth then 2 else 1

end Sys2Proof.Machine
end

