-- ==== Sys2Proof/Config.lean ====
section
/-! DEFINITION. The open parameters (spec 00_scope.md R7), which every definition that needs one
takes as an argument, and the free values: constants without a body, which nothing can evaluate.
The fixed parameters (R6) are in Machine/Params.lean. -/

namespace Sys2Proof.Config

/-- `T_INIT(a)` and `T_NEXT(a)`: clock cycles that an `INIT` or a `NEXT` occupies when `AUTH = a`
(R7, R172). OPEN in the spec, so every definition of the port binding takes them as an argument
(log 19). -/
structure Timing where
  tInit : Bit → Nat
  tNext : Bit → Nat

/-- The open timing parameters are positive integers (R7). -/
def Timing.Positive (T : Timing) : Prop := ∀ a : Bit, 0 < T.tInit a ∧ 0 < T.tNext a

/-- `byteBitOrder`: which bit of a byte the host presents first (R7, R43). OPEN: an argument. -/
inductive ByteBitOrder where
  | msbFirst
  | lsbFirst
deriving DecidableEq, Repr

/-- `tagWordOrder`: the place in a 32-bit host word of each accumulator index, any bijection
(R7, R46). OPEN: an argument. An injection of 32 places into 32 places is a bijection. -/
structure TagWordOrder where
  position : Fin 32 → Fin 32
  injective : Function.Injective position

/-! Free values. The argument is the number of the draw (`PortRegs.draws`). -/

/-- `L` after a port-level reset: unspecified (R160). Free value, log 20. -/
opaque freeL : Nat → Reg128
/-- `N` after a port-level reset: unspecified (R160). Free value, log 20. -/
opaque freeN : Nat → Reg128
/-- `A` after a port-level reset: unspecified (R160). Free value, log 20. -/
opaque freeA : Nat → Reg32
/-- `R` after a port-level reset: unspecified (R160). Free value, log 20. -/
opaque freeR : Nat → Reg32
/-- `AUTH` after a port-level reset: unspecified (R160). Free value, log 20. -/
opaque freeAUTH : Nat → Bit
/-- The `z` pin after a port-level reset: unspecified (R160). Free value, log 20. -/
opaque freeZ : Nat → Bit
/-- The `z` pin while a transaction is in progress (93_implementation_defined.md U2). Free value,
log 17. -/
opaque freeBusyZ : Nat → Bit
/-- The `tag` pins while a transaction is in progress or before the first `INIT` (R71, U2). Free
value, log 17. -/
opaque freeTag : Nat → Reg32

end Sys2Proof.Config
end

