-- ==== Sys2Proof/Syntax.lean ====
section
/-! DEFINITION. The commands: what the engine runs (`Instr`), what the host drives on the ports
(`Command`), and the textual form of the spec's examples as abstract syntax (`AsmLine`). -/

namespace Sys2Proof

/-- One constructor for each row of opcode_table.json (spec 30_encoding.md R63). A bit the spec
calls ignored is no operand; `rsvd` keeps `CW[0]` because its fault records the whole command
word (60_exceptions.md R141). -/
inductive Instr where
  /-- `IDLE`, `00x` (R134). -/
  | idle
  /-- `INIT key, iv`, `01x` (R100). -/
  | init (key : Key) (iv : IV)
  /-- `NEXT m`, `10m` (R110). -/
  | next (m : Bit)
  /-- `RSVD`, the reserved code `11x` (R65). -/
  | rsvd (x : Bit)
deriving DecidableEq, Repr

/-- What the ports carry at the moment a command is sampled: the command word and, beside it, the
`key` and `iv` ports (R62). -/
structure Command where
  cw : CommandWord
  key : Key
  iv : IV
deriving DecidableEq, Repr

/-- A bit sequence as the spec's examples write it (00_scope.md R13): a bit string, index 0
leftmost, or index-order hex (`x:`), four indices a digit. -/
inductive BitText where
  | bits (b : List Bit)
  | hex (digits : List (BitVec 4))
deriving DecidableEq, Repr

/-- One line of the spec's textual form (30_encoding.md R69), without its comment. -/
inductive AsmLine where
  | idle
  | init (key iv : BitText)
  | next (m : Bit)
  /-- `NEXT -`: written where `AUTH = 0` makes the message bit irrelevant. -/
  | nextDash
  | rsvd
deriving DecidableEq, Repr

end Sys2Proof
end

