-- ==== Sys2Proof/Machine/State.lean ====
section
/-! DEFINITION. The state as plain data (spec 10_state.md R20 to R35; the port registers of
30_encoding.md R61, R71), the reasons a step can stop (60_exceptions.md R141), and the state after
reset (70_reset_and_hazards.md R160, R161). -/

namespace Sys2Proof.Machine

/-- `PHASE`, the sequencing state (10_state.md R26). -/
inductive Phase where
  /-- No (key, IV) has been loaded since reset. -/
  | uninit
  /-- `INIT` has completed and no keystream bit has been produced since. -/
  | warmed
  /-- At least one keystream bit has been produced since the last `INIT`. -/
  | streaming
deriving DecidableEq, Repr

/-- The two state arrays, which are all that a core clock step reads and writes (R80). -/
structure Regs where
  L : Reg128
  N : Reg128
deriving DecidableEq, Repr

/-- The architectural state of one engine: exactly these six items (10_state.md R20). -/
structure Engine where
  /-- The LFSR (R21). -/
  L : Reg128
  /-- The NFSR (R22). -/
  N : Reg128
  /-- The accumulator, which is the tag (R23). -/
  A : Reg32
  /-- The authentication shift register (R24). -/
  R : Reg32
  /-- The authentication-mode flag (R25). -/
  AUTH : Bit
  /-- The sequencing state (R26). -/
  PHASE : Phase
deriving DecidableEq, Repr

/-- The registers of the decided port binding: no architectural state (10_state.md R31(c)). -/
structure PortRegs where
  /-- Cycles the transaction in progress still occupies; `busy = 1` exactly when it is not 0
  (30_encoding.md R71). -/
  busyLeft : Nat
  /-- The bit a `NEXT` in progress will present on `z` (R71). -/
  pending : Option Bit
  /-- The bit returned by the most recently completed `NEXT` (R61, R71). Before the first one of a
  run it holds an unspecified value, the same from cycle to cycle (DESIGN CHOICE, log 27). -/
  z : Bit
  /-- `z_valid` (R61). -/
  zValid : Bit
  /-- The MODEL's own: numbers the draws of free values (log 17). -/
  draws : Nat
deriving DecidableEq, Repr

/-- What the host can issue to the engine: a command (30_encoding.md R62) or a read of the tag,
which has no code (43_tag_idle.md R130). -/
inductive HostEvent where
  | command (c : Command)
  | readTag
deriving DecidableEq, Repr

/-- The machine: the engine, its port registers, and what the host has issued and the engine has
not yet taken, oldest first. The queue is the MODEL's own (log 3): the engine itself queues nothing
(R72), the host holds its program (R27). -/
structure State where
  engine : Engine
  port : PortRegs
  inputs : List HostEvent
deriving DecidableEq, Repr

/-- Which observation met `F_UNINIT_USE` (60_exceptions.md R141, "information recorded"). -/
inductive UninitUser where
  | next
  | tag
deriving DecidableEq, Repr

/-- The two faults of 60_exceptions.md R141. Both are the model's: the hardware reports nothing. -/
inductive Fault where
  /-- `F_UNINIT_USE`: `NEXT` or a tag read with `PHASE = UNINIT`. Safe: the spec gives the use no
  result (R126, R133), and the model stops. -/
  | uninitUse (who : UninitUser)
  /-- `F_RESERVED_OP`: a command word with `op = 11`, raised by `RSVD`. Safe: the code has no
  meaning (R65), and the model stops. -/
  | reservedOp (cw : CommandWord)
deriving DecidableEq, Repr

/-- Why a step is refused. -/
inductive Refusal where
  /-- An arm of `exec` that has no meaning yet; no arm of this model is one. Safe: nothing runs. -/
  | notModelled (mnemonic : String)
deriving DecidableEq, Repr

/-- The machine right after reset: `PHASE = UNINIT`, `busy` and `z_valid` low, nothing in progress
(R160, R161). `L`, `N`, `A`, `R`, `AUTH` and `z` are unspecified there; the zeros are a DESIGN
CHOICE (log 1, log 2) that no rule can read while `PHASE = UNINIT`. The host has issued nothing. -/
def State.reset : State where
  engine := { L := 0, N := 0, A := 0, R := 0, AUTH := false, PHASE := .uninit }
  port := { busyLeft := 0, pending := none, z := false, zValid := false, draws := 0 }
  inputs := []

end Sys2Proof.Machine
end

