-- ==== Sys2Proof/Machine/Ops.lean ====
section
/-! DEFINITION. The operations the meanings share: the one-position shift, writing one bit,
access to the two state arrays, delivering a result, and stopping with a fault. -/

namespace Sys2Proof.Machine

/-- `shr(X, v)`: bit 0 is discarded, every other bit moves to the next lower index, and `v` becomes
the top bit (00_scope.md R10). -/
def shr {n : Nat} (x : BitVec (n + 1)) (v : Bit) : BitVec (n + 1) :=
  BitVec.cons v (x.extractLsb' 1 n)

/-- `X[i] <- v`, every other bit kept. -/
def writeBit {n : Nat} (x : BitVec n) (i : Nat) (v : Bit) : BitVec n :=
  if v then x ||| (1#n <<< i) else x &&& ~~~(1#n <<< i)

/-- The two state arrays of an engine. -/
def Engine.regs (e : Engine) : Regs := ⟨e.L, e.N⟩

/-- The engine with both state arrays replaced at once (40_core_clock.md R87). -/
def Engine.withRegs (x : Regs) (e : Engine) : Engine := { e with L := x.L, N := x.N }

/-- The machine with its engine replaced: the host's queue and the port registers are kept. -/
def State.withEngine (e : Engine) (s : State) : State := { s with engine := e }

/-- `return z`: the result of a `NEXT` becomes the bit on `z` (30_encoding.md R61, R71; log 6). -/
def State.deliver (z : Bit) (s : State) : State := { s with port := { s.port with z := z } }

/-- Taking a fault (60_exceptions.md R145): "no state is saved, no mode changes, no vector is
fetched"; the command produces no result and no next state, and the fault is recorded. There is no
return from one (R146). -/
def raise {σ : Type} (f : Fault) : Host.Outcome σ Fault Refusal := .fault f

/-- The label of a fault (R141); no register holds it. -/
def Fault.code : Fault → Nat
  | .uninitUse _ => 1
  | .reservedOp _ => 2

/-- What follows an outcome: nothing follows a fault or a refusal (R145, R146). -/
def andThen {σ τ : Type} (o : Host.Outcome σ Fault Refusal)
    (k : σ → Host.Outcome τ Fault Refusal) : Host.Outcome τ Fault Refusal :=
  match o with
  | .next s => k s
  | .fault r => .fault r
  | .refused r => .refused r

end Sys2Proof.Machine
end

