-- ==== Sys2Proof/Machine/CoreClock.lean ====
section
/-! DEFINITION. The core clock step `CLOCK` and its four functions (spec 40_core_clock.md R80 to
R91). It has no code of its own (30_encoding.md R68): `INIT` and `NEXT` are built from it. -/

namespace Sys2Proof.Machine

/-- LFSR feedback `f` (R81). -/
def lfsrFeedback (x : Regs) : Bit :=
  x.L[0] ^^ x.L[7] ^^ x.L[38] ^^ x.L[70] ^^ x.L[81] ^^ x.L[96]

/-- NFSR feedback `g` (R82). -/
def nfsrFeedback (x : Regs) : Bit :=
  x.L[0]
    ^^ x.N[0] ^^ x.N[26] ^^ x.N[56] ^^ x.N[91] ^^ x.N[96]
    ^^ (x.N[3] && x.N[67])
    ^^ (x.N[11] && x.N[13])
    ^^ (x.N[17] && x.N[18])
    ^^ (x.N[27] && x.N[59])
    ^^ (x.N[40] && x.N[48])
    ^^ (x.N[61] && x.N[65])
    ^^ (x.N[68] && x.N[84])
    ^^ (x.N[88] && x.N[92] && x.N[93] && x.N[95])
    ^^ (x.N[22] && x.N[24] && x.N[25])
    ^^ (x.N[70] && x.N[78] && x.N[82])

/-- The formula of the output filter, on its nine variables (R83). -/
def filterFormula (x0 x1 x2 x3 x4 x5 x6 x7 x8 : Bit) : Bit :=
  (x0 && x1) ^^ (x2 && x3) ^^ (x4 && x5) ^^ (x6 && x7) ^^ (x0 && x4 && x8)

/-- The output filter `h`, its variables bound to the nine taps as R84 binds them. PRESUMED (the
spec's decision D2: the published binding, from general knowledge; log 8). -/
def outputFilter (x : Regs) : Bit :=
  filterFormula x.N[12] x.L[8] x.L[13] x.L[20] x.N[95] x.L[42] x.L[60] x.L[79] x.L[94]

/-- The output bit `y` (R85). -/
def outputBit (x : Regs) : Bit :=
  x.N[2] ^^ x.N[15] ^^ x.N[36] ^^ x.N[45] ^^ x.N[64] ^^ x.N[73] ^^ x.N[89] ^^ x.L[93]
    ^^ outputFilter x

/-- The state arrays after one core clock step: both shift by one, and the output bit is fed back
into both on every step (R86, R91; conflict C2, log 11). Everything on the right reads the arrays
from before the step (R87). -/
def clockRegs (x : Regs) : Regs :=
  ⟨shr x.L (lfsrFeedback x ^^ outputBit x), shr x.N (nfsrFeedback x ^^ outputBit x)⟩

/-- `y <- CLOCK()` (R80): the engine after the step, and the output bit. `A`, `R`, `AUTH` and
`PHASE` are kept (R89). -/
def Engine.clock (e : Engine) : Engine × Bit :=
  (e.withRegs (clockRegs e.regs), outputBit e.regs)

/-- `repeat k: CLOCK()`, the outputs discarded (R12). -/
def Engine.discard : Nat → Engine → Engine
  | 0, e => e
  | k + 1, e => Engine.discard k e.clock.1

/-- The state arrays after `k` core clock steps. -/
def clockTimes : Nat → Regs → Regs
  | 0, x => x
  | k + 1, x => clockTimes k (clockRegs x)

/-- `y_k`: the output of the `k`-th core clock step from `x`, counting from 0 (R106, R111). -/
def outputAt (x : Regs) (k : Nat) : Bit := outputBit (clockTimes k x)

end Sys2Proof.Machine
end

