-- ==== Sys2Proof/Machine/Flags.lean ====
section
/-! DEFINITION. The one flag `AUTH` and the sequencing state `PHASE` (spec 10_state.md R25, R26).
There are no condition codes; no operation sets a flag as a side effect (R25). -/

namespace Sys2Proof.Machine

/-- Step 2 of `INIT`: `AUTH <- L[0]`, after the LFSR is loaded (41_init.md R102). -/
def Engine.setAuth (e : Engine) : Engine := { e with AUTH := e.L.getLsbD authSelect }

/-- Step 7 of `INIT`: `PHASE <- WARMED` (R107). -/
def Engine.warm (e : Engine) : Engine := { e with PHASE := .warmed }

/-- The last step of `NEXT`: `PHASE <- STREAMING`, whatever it was (42_keystream.md R125). -/
def Engine.stream (e : Engine) : Engine := { e with PHASE := .streaming }

end Sys2Proof.Machine
end

