-- ==== Sys2Proof/Machine/Operands.lean ====
section
/-! DEFINITION. The operand forms: how a key, an IV and a message bit enter the registers. There
are no immediates, register numbers or addressing modes (spec 30_encoding.md R64). -/

namespace Sys2Proof.Machine

/-- The LFSR loaded from an IV: bits 0 to 95 are the IV's, bits 96 to 126 are 1, bit 127 is 0
(41_init.md R101; identity on indices, 20_memory.md R42). -/
def lfsrOf (iv : IV) : Reg128 := (pad ++ iv : BitVec (32 + 96))

/-- Step 1 of `INIT` (R101). -/
def Engine.loadLfsr (iv : IV) (e : Engine) : Engine := { e with L := lfsrOf iv }

/-- Step 3 of `INIT`: the NFSR is the key, bit for bit (R103). -/
def Engine.loadNfsr (key : Key) (e : Engine) : Engine := { e with N := key }

/-- Step 4 of `INIT`: both MAC registers are cleared (R104; decision D9, log 10). -/
def Engine.clearMac (e : Engine) : Engine := { e with A := 0, R := 0 }

/-- What the accumulator absorbs for the message bit `m`: the whole shift register when `m` is 1,
nothing when it is 0 (42_keystream.md R113). -/
def absorbed (m : Bit) (r : Reg32) : Reg32 := if m then r else 0

end Sys2Proof.Machine
end

