-- ==== Sys2Proof/Machine/Init.lean ====
section
/-! DEFINITION. `INIT`: construction from a key and an IV (spec 41_init.md R100 to R109). -/

namespace Sys2Proof.Machine

/-- `for i from ...: y <- CLOCK(); A[i] <- y`: `k` more steps, the next bit written being `i`
(R106). -/
def Engine.seedAcc : Nat → Nat → Engine → Engine
  | 0, _, e => e
  | k + 1, i, e => Engine.seedAcc k (i + 1) { e.clock.1 with A := writeBit e.A i e.clock.2 }

/-- `for i from ...: y <- CLOCK(); R[i] <- y` (R106). -/
def Engine.seedSr : Nat → Nat → Engine → Engine
  | 0, _, e => e
  | k + 1, i, e => Engine.seedSr k (i + 1) { e.clock.1 with R := writeBit e.R i e.clock.2 }

/-- Step 6 of `INIT`: the first 32 outputs seed the accumulator, the next 32 the shift register,
only when authentication is enabled (R106). -/
def Engine.seed (e : Engine) : Engine :=
  if e.AUTH then (e.seedAcc accSeedSteps 0).seedSr srSeedSteps 0 else e

/-- Steps 1 to 4 of `INIT` in their order (R101 to R104). -/
def Engine.load (key : Key) (iv : IV) (e : Engine) : Engine :=
  (((e.loadLfsr iv).setAuth).loadNfsr key).clearMac

/-- The whole procedure (R109), from whatever the engine held before (R108; decision D7, log 15). -/
def Engine.init (key : Key) (iv : IV) (e : Engine) : Engine :=
  (((e.load key iv).discard nDiscard).seed).warm

/-- The meaning of `INIT key, iv` (R109): accepted in every phase, no fault, no result. -/
def execInit (key : Key) (iv : IV) (s : State) : Host.Outcome State Fault Refusal :=
  .next (s.withEngine (s.engine.init key iv))

end Sys2Proof.Machine
end

