-- ==== Sys2Proof/Machine/Keystream.lean ====
section
/-! DEFINITION. `NEXT`: one keystream bit, with the interleaved tag accumulation (spec
42_keystream.md R110 to R128). -/

namespace Sys2Proof.Machine

/-- `MACUPDATE(m, y)` (R113): the accumulator absorbs the shift register as it was before its
shift, lane by lane, when `m` is 1; then the shift register shifts, `y` entering at index 31
(decision D21, log 12). -/
def Engine.macUpdate (m y : Bit) (e : Engine) : Engine :=
  { e with A := e.A ^^^ absorbed m e.R, R := shr e.R y }

/-- `NEXT_plain()` (R111). -/
def Engine.nextPlain (e : Engine) : Engine × Bit := e.clock

/-- `NEXT_auth(m)` (R112): the first output of the pair is the keystream bit, the second is
diverted into the tag accumulation. -/
def Engine.nextAuth (m : Bit) (e : Engine) : Engine × Bit :=
  (e.clock.1.clock.1.macUpdate m e.clock.1.clock.2, e.clock.2)

/-- `NEXT(m)` once `PHASE` is not `UNINIT` (R110, R125): the engine after it and the keystream bit.
It is the function `State -> Bit -> State x Bit` of 30_encoding.md R75. -/
def Engine.next (m : Bit) (e : Engine) : Engine × Bit :=
  if e.AUTH then ((e.nextAuth m).1.stream, (e.nextAuth m).2)
  else (e.nextPlain.1.stream, e.nextPlain.2)

/-- `NEXT(m)` as a host meets it (R110): the fault `F_UNINIT_USE` before any `INIT` (R126), the
engine and the keystream bit otherwise. -/
def Engine.nextCall (m : Bit) (e : Engine) : Host.Outcome (Engine × Bit) Fault Refusal :=
  if e.PHASE = .uninit then raise (.uninitUse .next) else .next (e.next m)

/-- The meaning of `NEXT m` (R110): the call on the engine, its keystream bit on `z`. -/
def execNext (m : Bit) (s : State) : Host.Outcome State Fault Refusal :=
  andThen (s.engine.nextCall m) (fun r => .next ((s.withEngine r.1).deliver r.2))

/-- `KEYSTREAM len, M` on an engine that has been initialised (R114): the fold of `NEXT` over the
message; the engine after it and the returned bits in order. -/
def Engine.keystream : List Bit → Engine → Engine × List Bit
  | [], e => (e, [])
  | m :: ms, e =>
    (((e.next m).1.keystream ms).1, (e.next m).2 :: ((e.next m).1.keystream ms).2)

/-- `KEYSTREAM len, M` as a host meets it (30_encoding.md R70): the calls of its `NEXT` commands one
after another, the first of which faults before any `INIT` (R126); the empty message calls
nothing. -/
def Engine.keystreamCall : List Bit → Engine → Host.Outcome (Engine × List Bit) Fault Refusal
  | [], e => .next (e, [])
  | m :: ms, e =>
    andThen (e.nextCall m) (fun r =>
      andThen (r.1.keystreamCall ms) (fun q => .next (q.1, r.2 :: q.2)))

end Sys2Proof.Machine
end

