-- ==== Sys2Proof/WellFormed.lean ====
section
/-! DEFINITION. The checks on what a host writes before the engine is involved.

An `Instr` needs no check: its operands are typed by width, so a key or IV of the wrong length
cannot be written down (spec 60_exceptions.md R142). The check lives where variable-length input
is: in the textual form (`AsmLine`), and in a command word given as a number. -/

namespace Sys2Proof

/-- How many bits a written sequence has. -/
def BitText.length : BitText → Nat
  | .bits b => b.length
  | .hex d => 4 * d.length

/-- A key must have exactly 128 bits and an IV exactly 96: "no partial/variable lengths accepted"
(R47, R142). -/
def AsmLine.wf : AsmLine → Bool
  | .init key iv => key.length == 128 && iv.length == 96
  | .idle => true
  | .next _ => true
  | .nextDash => true
  | .rsvd => true

/-- A number is a command word when it fits three bits (R62, R67). -/
def wordWf (w : Nat) : Bool := decide (w < 8)

end Sys2Proof
end

