-- ==== Sys2Proof/Decode.lean ====
section
/-! DEFINITION. The decoder, total on every command word (spec 30_encoding.md R62 to R67), the
encoder from the same table, and the assembler of the textual form (R69). -/

namespace Sys2Proof

/-- The opcode field, `CW[2:1]` (R62). -/
def Command.op (c : Command) : BitVec 2 := c.cw.extractLsb' 1 2

/-- The message bit field, `CW[0]` (R62). -/
def Command.m (c : Command) : Bit := c.cw.getLsbD 0

/-- The command word with opcode `op` and message bit `m` (R62). -/
def commandWord (op : BitVec 2) (m : Bit) : CommandWord := op ++ BitVec.ofBool m

/-- The instruction that a sampled command stands for (R63). `key` and `iv` are operands of `INIT`
alone and `CW[0]` of `NEXT` alone (R64, R66); the reserved code is a row of its own, reached only
by `op = 11`. -/
def decode (c : Command) : Instr :=
  if c.op = 0b00#2 then .idle
  else if c.op = 0b01#2 then .init c.key c.iv
  else if c.op = 0b10#2 then .next c.m
  else .rsvd c.m

/-- The command a host drives for an instruction, in the canonical words of R69. The ports an
instruction ignores are driven with 0 (DESIGN CHOICE, log 16: "an ignored input may hold any
value", R66). -/
def encode : Instr → Command
  | .idle => ⟨commandWord 0b00#2 false, 0, 0⟩
  | .init key iv => ⟨commandWord 0b01#2 false, key, iv⟩
  | .next m => ⟨commandWord 0b10#2 m, 0, 0⟩
  | .rsvd x => ⟨commandWord 0b11#2 x, 0, 0⟩

/-- Why a number is refused as a command. -/
inductive DecodeReject where
  /-- The number does not fit the three bits of a command word (R67). Safe: nothing runs. -/
  | notACommandWord (w : Nat)
deriving DecidableEq, Repr

/-- The decoder on a number: the command word `w` with the given `key` and `iv` ports. -/
def decodeWord (w : Nat) (key : Key) (iv : IV) : Except DecodeReject Instr :=
  if wordWf w then .ok (decode ⟨BitVec.ofNat 3 w, key, iv⟩) else .error (.notACommandWord w)

/-- The instruction read from a word of opcode_table.json: bit 0 of `w` is `CW[0]`. The table gives
the `key` and `iv` operands no bits, so both ports carry zeros (log 16). -/
def decodeTableWord (nbits w : Nat) : Option Instr :=
  match decodeWord (w % 2 ^ nbits) 0 0 with
  | .ok i => some i
  | .error _ => none

/-- One row of the opcode map (R63): the words `w` with `w &&& mask = pattern`. -/
structure OpcodeRow where
  mnemonic : String
  pattern : CommandWord
  mask : CommandWord
deriving DecidableEq, Repr

/-- The opcode map of R63. -/
def opcodeRows : List OpcodeRow :=
  [⟨"IDLE", 0b000#3, 0b110#3⟩, ⟨"INIT", 0b010#3, 0b110#3⟩,
   ⟨"NEXT", 0b100#3, 0b110#3⟩, ⟨"RSVD", 0b110#3, 0b110#3⟩]

/-- The mnemonic of an instruction (R63). -/
def Instr.mnemonic : Instr → String
  | .idle => "IDLE"
  | .init _ _ => "INIT"
  | .next _ => "NEXT"
  | .rsvd _ => "RSVD"

/-- The row a command word belongs to. -/
def rowOf (cw : CommandWord) : Option OpcodeRow :=
  opcodeRows.find? (fun r => cw &&& r.mask == r.pattern)

/-! The textual form (R69, R13). -/

/-- The four indices of one index-order hex digit, the lowest in the digit's most significant
position (R13). -/
def hexDigitBits (d : BitVec 4) : List Bit :=
  [d.getLsbD 3, d.getLsbD 2, d.getLsbD 1, d.getLsbD 0]

/-- The bits a written sequence stands for, index 0 first (R13). -/
def BitText.toBits : BitText → List Bit
  | .bits b => b
  | .hex d => d.flatMap hexDigitBits

/-- The bit vector of a bit sequence: bit `i` is element `i`. -/
def vecOfBits (n : Nat) (bs : List Bit) : BitVec n :=
  BitVec.ofFnLE (fun i => bs.getD i.val false)

/-- "Malformed fixed-width inputs ... should fail fast (construction error)" (R142). -/
inductive ConstructionError where
  | keyLength (n : Nat)
  | ivLength (n : Nat)
deriving DecidableEq, Repr

/-- The instruction a line of the textual form stands for (R69): `NEXT -` is `NEXT 0`, `RSVD` is
the word `110`. A key or IV of the wrong length is a construction error of the host adapter, before
the engine is involved (R142, U6; log 23); where both lengths are wrong the key's is the one
reported (the model's own order, log 23). -/
def AsmLine.instr : AsmLine → Except ConstructionError Instr
  | .idle => .ok .idle
  | .init key iv =>
    if key.length ≠ 128 then .error (.keyLength key.length)
    else if iv.length ≠ 96 then .error (.ivLength iv.length)
    else .ok (.init (vecOfBits 128 key.toBits) (vecOfBits 96 iv.toBits))
  | .next m => .ok (.next m)
  | .nextDash => .ok (.next false)
  | .rsvd => .ok (.rsvd false)

/-- The command a line of the textual form stands for (R69). -/
def assemble (l : AsmLine) : Except ConstructionError Command :=
  match l.instr with
  | .ok i => .ok (encode i)
  | .error e => .error e

/-! The same lines as text (R69), in the form the spec's examples write them. -/

/-- A bit as text. -/
def bitText (b : Bit) : String := if b then "1" else "0"

/-- A written sequence as text: a bit string, or `x:` and its digits (R13). -/
def BitText.text : BitText → String
  | .bits b => String.join (b.map bitText)
  | .hex d => "x:" ++ String.ofList (d.map (fun v => Nat.digitChar v.toNat))

/-- A line as text (R69). -/
def AsmLine.text : AsmLine → String
  | .idle => "IDLE"
  | .init key iv => "INIT key=" ++ key.text ++ ", iv=" ++ iv.text
  | .next m => "NEXT " ++ bitText m
  | .nextDash => "NEXT -"
  | .rsvd => "RSVD"

end Sys2Proof
end

