-- ==== Sys2Proof/Machine/Reserved.lean ====
section
/-! DEFINITION. `RSVD`: the reserved code (spec 30_encoding.md R65). -/

namespace Sys2Proof.Machine

/-- The meaning of `RSVD` (R65): "a model **refuses** it with the fault `F_RESERVED_OP`", recording
the 3-bit command word (60_exceptions.md R141), in every phase. -/
def execRsvd (x : Bit) (_ : State) : Host.Outcome State Fault Refusal :=
  raise (.reservedOp (commandWord 0b11#2 x))

end Sys2Proof.Machine
end

