-- ==== Sys2Proof/Machine/TagIdle.lean ====
section
/-! DEFINITION. The observation `TAG` and the command `IDLE` (spec 43_tag_idle.md R130 to R136). -/

namespace Sys2Proof.Machine

/-- `TAG()` (R130): result bit `j` is `A[j]`; `F_UNINIT_USE` before any `INIT` (R133). It writes
nothing. -/
def Engine.tag (e : Engine) : Host.Outcome Reg32 Fault Refusal :=
  if e.PHASE = .uninit then raise (.uninitUse .tag) else .next e.A

/-- A tag read as an event of the host: it stops where `TAG` does and changes nothing otherwise
(R130, R50). The value read is `Engine.tag` of the state (log 5). -/
def readTag (s : State) : Host.Outcome State Fault Refusal :=
  andThen s.engine.tag (fun _ => .next s)

/-- The meaning of `IDLE` (R134): reads nothing, writes nothing, in every phase. -/
def execIdle (s : State) : Host.Outcome State Fault Refusal := .next s

end Sys2Proof.Machine
end

