-- ==== Sys2Proof/Machine/Dispatch.lean ====
section
/-! DEFINITION. The meaning of each instruction, one arm per row of opcode_table.json. -/

namespace Sys2Proof.Machine

def exec (i : Instr) (s : State) : Host.Outcome State Fault Refusal :=
  match i with
  | .idle => Sys2Proof.Machine.execIdle s
  | .init key iv => Sys2Proof.Machine.execInit key iv s
  | .next m => Sys2Proof.Machine.execNext m s
  | .rsvd x => Sys2Proof.Machine.execRsvd x s

end Sys2Proof.Machine
end

