-- ==== Sys2Proof/Machine/Fetch.lean ====
section
/-! DEFINITION. Where the engine's next command comes from. The engine has no program counter and
fetches no instructions (spec 10_state.md R27, 20_memory.md R55): the host issues commands one at a
time, and `State.inputs` holds what it has issued (log 3). -/

namespace Sys2Proof.Machine

/-- The machine with another queue of issued commands. -/
def State.withInputs (evs : List HostEvent) (s : State) : State := { s with inputs := evs }

/-- The command of a word of opcode_table.json, the ports of the operands it gives no bits carrying
zeros (log 16). -/
def commandOfTableWord (nbits w : Nat) : Command := ⟨BitVec.ofNat 3 (w % 2 ^ nbits), 0, 0⟩

/-- The event of the host that issues an instruction. -/
def issue (i : Instr) : HostEvent := .command (encode i)

end Sys2Proof.Machine
end

