-- ==== Sys2Proof/Machine/Step.lean ====
section
/-! DEFINITION. One step: the oldest thing the host has issued is taken and performed, one command
one transaction (spec 30_encoding.md R74; 20_memory.md R51). -/

namespace Sys2Proof.Machine

/-- One transaction. With nothing issued the engine keeps its state (log 4: "an undriven command
input does nothing", decision D4). The three cases differ only in what is performed. -/
def step (s : State) : Host.Outcome State Fault Refusal :=
  match s.inputs with
  | [] => .next s
  | .command c :: rest => exec (decode c) (s.withInputs rest)
  | .readTag :: rest => readTag (s.withInputs rest)

/-- `s` with the command word `w` of opcode_table.json issued next: bit 0 of `w` is `CW[0]`, and
the `key` and `iv` ports carry zeros. -/
def State.withFetchWord (s : State) (nbits w : Nat) : State :=
  s.withInputs (.command (commandOfTableWord nbits w) :: s.inputs)

end Sys2Proof.Machine
end

