-- ==== Sys2Proof/Machine/HostAdapter.lean ====
section
/-! DEFINITION. The host's side of the interface, as far as the spec's rules speak of it: bytes to
bits, the rendering of the tag, the exclusive-OR, padding, comparison of tags, and the three passes
of the source (spec 20_memory.md R43, R46, R54; 42_keystream.md R118, R122 to R124;
60_exceptions.md R143; 70_reset_and_hazards.md R168). The engine uses none of it. -/

namespace Sys2Proof.Adapter

open Sys2Proof.Config Sys2Proof.Machine

/-- The 8 bits of a byte in the order the host presents them (R43). -/
def bitsOfByte (o : ByteBitOrder) (b : Byte) : List Bit :=
  match o with
  | .msbFirst => [b.getLsbD 7, b.getLsbD 6, b.getLsbD 5, b.getLsbD 4,
                  b.getLsbD 3, b.getLsbD 2, b.getLsbD 1, b.getLsbD 0]
  | .lsbFirst => [b.getLsbD 0, b.getLsbD 1, b.getLsbD 2, b.getLsbD 3,
                  b.getLsbD 4, b.getLsbD 5, b.getLsbD 6, b.getLsbD 7]

/-- The bit sequence of a byte sequence: byte `k` supplies bits `8k` to `8k+7` (R43). -/
def bitsOfBytes (o : ByteBitOrder) (bs : List Byte) : List Bit := bs.flatMap (bitsOfByte o)

/-- `KEYSTREAM.B n, B` on an engine (30_encoding.md R70): `KEYSTREAM 8n, bits(B)`, with the fault of
its first `NEXT` before any `INIT`. As commands it is `Machine.pseudoKeystreamBytes`. -/
def keystreamBytes (o : ByteBitOrder) (bs : List Byte) (e : Engine) :
    Host.Outcome (Engine × List Bit) Fault Refusal :=
  e.keystreamCall (bitsOfBytes o bs)

/-- The host's 32-bit word for a tag: `A[j]` stands at the place the order gives index `j`
(R46). -/
def tagWord (o : TagWordOrder) (a : Reg32) : BitVec 32 :=
  (List.finRange 32).foldl (fun w j => writeBit w (o.position j).val (a.getLsbD j.val)) 0

/-- Two tags match when they agree at every index (R46, R143). -/
def tagsMatch (a b : Reg32) : Bool := (List.range 32).all (fun j => a.getLsbD j == b.getLsbD j)

/-- The caller's framing convention: one trailing byte 0x01 (R168). -/
def padMessage (bs : List Byte) : List Byte := bs ++ [0x01#8]

/-- The caller's exclusive-OR of its buffer with the keystream, bit by bit (R54, R114). -/
def xorBits (p z : List Bit) : List Bit := List.zipWith (fun a b => a ^^ b) p z

/-- The engine after one pass over a buffer, and the keystream it returned: a fresh `INIT`, then
the buffer's bits as they were before the exclusive-OR (R118; decision D12, log 13). -/
def pass (key : Key) (iv : IV) (buffer : List Bit) (e : Engine) : Engine × List Bit :=
  (e.init key iv).keystream buffer

/-- What a pass makes of the buffer: ciphertext from plaintext, plaintext from ciphertext. -/
def combine (key : Key) (iv : IV) (buffer : List Bit) (e : Engine) : List Bit :=
  xorBits buffer (pass key iv buffer e).2

/-- The accumulator at the end of a pass. -/
def passTag (key : Key) (iv : IV) (buffer : List Bit) (e : Engine) : Reg32 :=
  (pass key iv buffer e).1.A

/-- The buffer with bit `i` flipped. -/
def flipBit (i : Nat) (buffer : List Bit) : List Bit := buffer.modify i (fun b => !b)

end Sys2Proof.Adapter
end

