-- ==== Sys2Proof/Machine/Pseudo.lean ====
section
/-! DEFINITION. Runs of the machine, their observable outcome (spec 70_reset_and_hazards.md R174),
and the pseudo-instructions as sequences of host events (30_encoding.md R70). -/

namespace Sys2Proof.Machine

/-- `k` transactions, stopping at the first fault: a fault is never cleared (60_exceptions.md R146,
log 25). -/
abbrev run (k : Nat) (s : State) : Host.Outcome State Fault Refusal := Host.Core.run Sys2Proof.core k s

/-- The host issues exactly `evs`, one transaction each. -/
def runEvents (evs : List HostEvent) (s : State) : Host.Outcome State Fault Refusal :=
  run evs.length (s.withInputs evs)

/-- What a transaction shows the host: the bit a `NEXT` returned, or the tag a read returned
(R174). -/
inductive Observation where
  | bit (z : Bit)
  | tag (a : Reg32)
deriving DecidableEq, Repr

/-- Does the instruction return a keystream bit (30_encoding.md R60)? -/
def returnsBit : Instr → Bool
  | .idle => false
  | .init _ _ => false
  | .next _ => true
  | .rsvd _ => false

/-- What the step from `s` to `t` showed. -/
def observe (s t : State) : List Observation :=
  match s.inputs with
  | [] => []
  | .command c :: _ => if returnsBit (decode c) then [.bit t.port.z] else []
  | .readTag :: _ => [.tag t.engine.A]

/-- The observable outcome of `k` transactions, in order; nothing from a faulting command on
(R174). -/
def outcome : Nat → State → List Observation
  | 0, _ => []
  | k + 1, s =>
    match step s with
    | .next t => observe s t ++ outcome k t
    | .fault _ => []
    | .refused _ => []

/-- The keystream bits among the observations. -/
def bitsOf (os : List Observation) : List Bit :=
  os.filterMap (fun o => match o with | .bit z => some z | .tag _ => none)

/-! The pseudo-instructions (R70). -/

/-- `CONSTRUCT key, iv`. -/
def pseudoConstruct (key : Key) (iv : IV) : List HostEvent := [issue (.init key iv)]

/-- `KEYSTREAM len, M`: one `NEXT` a message bit; nothing for the empty message. -/
def pseudoKeystream (M : List Bit) : List HostEvent := M.map (fun m => issue (.next m))

/-- `KEYSTREAM.B n, B`: `KEYSTREAM 8n, bits(B)`, where `bits` applies `byteBitOrder`
(20_memory.md R43), an argument (log 22). -/
def pseudoKeystreamBytes (o : Config.ByteBitOrder) (bs : List Byte) : List HostEvent :=
  pseudoKeystream (Adapter.bitsOfBytes o bs)

/-- `TAG`: no command, a read of the accumulator. -/
def pseudoTag : List HostEvent := [.readTag]

end Sys2Proof.Machine
end

