-- ==== Sys2Proof/Machine/Engines.lean ====
section
/-! DEFINITION. Several engines: the product of copies of the single-engine model, any interleaving
of their transactions (spec 60_exceptions.md R149, 10_state.md R29). -/

namespace Sys2Proof.Machine

/-- The engines side by side, each with the outcome of its own run so far: an engine that has
faulted stays so and stops no other. -/
abbrev Engines := List (Host.Outcome State Fault Refusal)

/-- Engine `k` performs its next transaction; the others do nothing. -/
def stepEngine (k : Nat) (es : Engines) : Engines := es.modify k (fun o => andThen o step)

/-- The engines take turns as the schedule names them. -/
def runSchedule : List Nat → Engines → Engines
  | [], es => es
  | k :: ks, es => runSchedule ks (stepEngine k es)

end Sys2Proof.Machine
end

