-- ==== Sys2Proof/Machine/Port.lean ====
section
/-! DEFINITION. The decided port binding, clock edge by clock edge (spec 30_encoding.md R61, R62,
R71 to R73; 70_reset_and_hazards.md R160, R170 to R172). It adds time to the transactions and
changes none of their results (30_encoding.md R75). -/

namespace Sys2Proof.Machine

/-- What the host drives on the input ports at a rising edge of `clk` (R61). -/
structure PortIn where
  rst : Bit
  op : BitVec 2
  m : Bit
  key : Key
  iv : IV
deriving DecidableEq, Repr

/-- What the output ports show (R61). -/
structure PortOut where
  busy : Bit
  z : Bit
  zValid : Bit
  tag : Reg32
deriving DecidableEq, Repr

/-- The command the ports carry: `CW = {op, m}` with the operand ports beside it (R62). -/
def PortIn.command (p : PortIn) : Command := ⟨commandWord p.op p.m, p.key, p.iv⟩

/-- `busy`: a transaction is in progress (R61). -/
def State.busy (s : State) : Bit := s.port.busyLeft != 0

/-- The output ports between two edges. `tag` follows `A` while `busy = 0`; while `busy = 1` it is
unspecified (R71), and so it is in `UNINIT` (U2): a free value. `z` holds the last returned bit;
while `busy = 1` the spec gives no value to rely on (U2): a free value (log 17). Between reset and
the first completed `NEXT` of a run U2 allows any value on `z` at any time; that the pin then shows
one value, held from cycle to cycle in `port.z`, is the model's choice (DESIGN CHOICE, log 27). -/
def State.pins (s : State) : PortOut where
  busy := s.busy
  z := if s.busy then Config.freeBusyZ s.port.draws else s.port.z
  zValid := s.port.zValid
  tag := if s.busy || s.engine.PHASE == .uninit then Config.freeTag s.port.draws else s.engine.A

/-- `clk` cycles the transaction of an instruction occupies (R7, R71, R172); `IDLE` never raises
`busy` (R71). -/
def cyclesOf (T : Config.Timing) (e : Engine) : Instr → Nat
  | .idle => 1
  | .init _ iv => T.tInit (iv.getLsbD authSelect)
  | .next _ => T.tNext e.AUTH
  | .rsvd _ => 1

/-- The port registers after the instruction `i` was accepted with the registers `before`, its
transaction returning `z`: `busy` is raised for one cycle less than the transaction occupies; a
`NEXT` that occupies one cycle presents its result at once (R71). -/
def PortRegs.accept (i : Instr) (left : Nat) (z : Bit) (before : PortRegs) : PortRegs :=
  if left = 0 then { before with busyLeft := 0, pending := none, z := z, zValid := returnsBit i }
  else { before with busyLeft := left, pending := if returnsBit i then some z else none,
                     zValid := false }

/-- One cycle of a transaction in progress; its last cycle presents the result of a `NEXT` on `z`
with `z_valid = 1` (R71). -/
def PortRegs.countDown (left : Nat) (p : PortRegs) : PortRegs :=
  if left = 0 then { p with busyLeft := 0, pending := none, z := p.pending.getD p.z,
                            zValid := p.pending.isSome }
  else { p with busyLeft := left, zValid := false }

/-- The next draw of free values. -/
def PortRegs.draw (p : PortRegs) : PortRegs := { p with draws := p.draws + 1 }

/-- A command accepted at an edge with `busy = 0`: its whole transaction takes effect, and the port
registers begin to count (R71, R72; log 18). -/
def acceptCommand (T : Config.Timing) (c : Command) (s : State) : Host.Outcome State Fault Refusal :=
  andThen (exec (decode c) s) (fun t =>
    .next { t with port :=
      (s.port.accept (decode c) (cyclesOf T s.engine (decode c) - 1) t.port.z).draw })

/-- Reset at an edge with `rst = 1` (R160): `PHASE = UNINIT`, any transaction in progress is
abandoned, `busy` and `z_valid` drop; everything else is unspecified, so it takes free values
(log 20). `z` is drawn once here and held until a `NEXT` completes (DESIGN CHOICE, log 27). -/
def portReset (s : State) : State :=
  { s with
    engine := { L := Config.freeL s.port.draws, N := Config.freeN s.port.draws,
                A := Config.freeA s.port.draws, R := Config.freeR s.port.draws,
                AUTH := Config.freeAUTH s.port.draws, PHASE := .uninit }
    port := { busyLeft := 0, pending := none, z := Config.freeZ s.port.draws, zValid := false,
              draws := s.port.draws + 1 } }

/-- One rising edge of `clk`. At an edge with `rst = 1` nothing is sampled; at an edge with
`busy = 1` the ports are not looked at (R72). -/
def clockEdge (T : Config.Timing) (p : PortIn) (s : State) : Host.Outcome State Fault Refusal :=
  if p.rst then .next (portReset s)
  else if s.port.busyLeft = 0 then acceptCommand T p.command s
  else .next { s with port := (s.port.countDown (s.port.busyLeft - 1)).draw }

/-- A sequence of clock edges. -/
def runEdges (T : Config.Timing) : List PortIn → State → Host.Outcome State Fault Refusal
  | [], s => .next s
  | p :: ps, s => andThen (clockEdge T p s) (runEdges T ps)

/-- Is a command sampled at this edge (R72)? -/
def samples (p : PortIn) (s : State) : Bool := !p.rst && s.port.busyLeft == 0

/-- The commands sampled during a sequence of clock edges, as the host's events, up to and
including one that faults. -/
def sampledEvents (T : Config.Timing) : List PortIn → State → List HostEvent
  | [], _ => []
  | p :: ps, s =>
    (if samples p s then [.command p.command] else []) ++
      match clockEdge T p s with
      | .next t => sampledEvents T ps t
      | .fault _ => []
      | .refused _ => []

/-- The bits presented on `z` with `z_valid = 1` during a sequence of clock edges, in order: what a
host that watches the pins collects (R71). -/
def presentedBits (T : Config.Timing) : List PortIn → State → List Bit
  | [], _ => []
  | p :: ps, s =>
    match clockEdge T p s with
    | .next t => (if t.port.zValid then [t.port.z] else []) ++ presentedBits T ps t
    | .fault _ => []
    | .refused _ => []

end Sys2Proof.Machine
end

