-- ==== Sys2Proof/Safety.lean ====
section
/-! DEFINITION. What counts as a safe run, in the words of the claims: the legal orders of commands
(spec 70_reset_and_hazards.md R162, R163), and the invariant of the machine (10_state.md R35,
40_core_clock.md R93). -/

namespace Sys2Proof.Machine

/-- The order of use (R162): `INIT` before any `NEXT` or tag read, and never the reserved code;
`IDLE` and `INIT` anywhere. `ready` says that an `INIT` has been performed since reset. -/
def legalFrom : Bool → List HostEvent → Bool
  | _, [] => true
  | ready, .readTag :: evs => ready && legalFrom ready evs
  | ready, .command c :: evs =>
    match decode c with
    | .idle => legalFrom ready evs
    | .init _ _ => legalFrom true evs
    | .next _ => ready && legalFrom ready evs
    | .rsvd _ => false

/-- Is the event an `INIT` command? -/
def isInit : HostEvent → Bool
  | .readTag => false
  | .command c =>
    match decode c with
    | .idle => false
    | .init _ _ => true
    | .next _ => false
    | .rsvd _ => false

/-- Does the event only pass time or look: an `IDLE` or a tag read (42_keystream.md R128)? -/
def isQuiet : HostEvent → Bool
  | .readTag => true
  | .command c =>
    match decode c with
    | .idle => true
    | .init _ _ => false
    | .next _ => false
    | .rsvd _ => false

/-- Has a key and IV been loaded since reset? -/
def Engine.ready (e : Engine) : Bool := e.PHASE != .uninit

/-- Mode gating (R35): without authentication both MAC registers are zero. -/
def Engine.MacGated (e : Engine) : Prop := e.AUTH = false → e.A = 0 ∧ e.R = 0

/-- The state arrays stand in neither fixed point of the core clock step (R93). -/
def Engine.NotStuck (e : Engine) : Prop :=
  ¬ (e.L = 0 ∧ e.N = 0) ∧ ¬ (e.L = BitVec.allOnes 128 ∧ e.N = BitVec.allOnes 128)

/-- The invariant of a machine: once a key and IV have been loaded, mode gating holds and the state
arrays are in neither fixed point. Before that the registers hold no value to rely on (R32). -/
def State.Inv (s : State) : Prop :=
  s.engine.PHASE = .uninit ∨ (s.engine.MacGated ∧ s.engine.NotStuck)

/-- The invariant of the port registers: a result is waiting only while a transaction is in
progress, and `z_valid` is high only when none is (30_encoding.md R71). -/
def State.PortInv (s : State) : Prop :=
  (s.port.pending.isSome = true → s.port.busyLeft ≠ 0) ∧ (s.port.zValid = true → s.port.busyLeft = 0)

/-- Two machines that differ at most in what the registers of the engine hold before the first
`INIT` (10_state.md R32). -/
def SameButUnloaded (s t : State) : Prop :=
  s.inputs = t.inputs ∧ s.port = t.port ∧ s.engine.PHASE = t.engine.PHASE ∧
    (s.engine.PHASE ≠ .uninit → s.engine = t.engine)

/-- Two outcomes correspond: next states that stand in the relation, or the same stop. -/
def Corresponds (rel : State → State → Prop) :
    Host.Outcome State Fault Refusal → Host.Outcome State Fault Refusal → Prop
  | .next s, .next t => rel s t
  | .fault r, .fault r' => r = r'
  | .refused r, .refused r' => r = r'
  | _, _ => False

end Sys2Proof.Machine
end

