-- ==== Sys2Proof/Certificates/Slice0/Obligations.lean ====
section
/-! DEFINITION. The statements about the engine, each from the numbered rules it names. Where a
clause rests on a decision of the spec (92_eei_decisions.md D<n>) or on a choice of the model, its
docstring names the decision and the entry of the assumption log. No statement rests on a value
left open: the registers before the first `INIT` (log 1), `z` before the first `NEXT` (log 2), the
free values of Config, the open timing, byte order and tag rendering are universally quantified or
not read. -/

namespace Sys2Proof.Claims

open Sys2Proof.Machine

/-- `XOR{...}` of a list of bits, 0 for the empty list (00_scope.md R11). -/
def xorOf (bs : List Bit) : Bit := bs.foldr (fun a b => a ^^ b) false

/-- The state arrays just after the loads of `INIT`, before any seeding step (R101, R103). -/
def loaded (key : Key) (iv : IV) : Regs := ⟨lfsrOf iv, key⟩

/-- Two contents of a state array that differ at index 127 and nowhere else. -/
def onlyTopDiffers (a b : Reg128) : Prop :=
  (∀ i < 127, a.getLsbD i = b.getLsbD i) ∧ a.getLsbD 127 ≠ b.getLsbD 127

/-- `s_k`, the bit stream that passes through the authentication shift register (R120):
`s_k = y_(32+k)` for `k <= 31`, and `s_(32+i) = y_(64+2i+1)`. -/
def macStream (x : Regs) (k : Nat) : Bit :=
  if k < 32 then outputAt x (32 + k) else outputAt x (64 + 2 * (k - 32) + 1)

/-- `R_i`: the shift register just before the tag accumulation of position `i` (R120). -/
def shiftRegAt (M : List Bit) (i : Nat) (e : Engine) : Reg32 := (e.keystream (M.take i)).1.R

/-- The keystream of the source's concrete scenario (R175). -/
def scenarioBits : List Bit :=
  [true, true, false, false, false, false, false, false,
   false, true, false, false, true, true, true, true]

/-- All input ports of a sequence of edges with reset low. -/
def noReset (ps : List PortIn) : Prop := ∀ p ∈ ps, p.rst = false

end Sys2Proof.Claims

open Sys2Proof Sys2Proof.Machine Sys2Proof.Claims

/-! ## Encoding -/

/-- Decoding an encoded instruction gives it back, with every operand at every value; and two
commands are the same instruction exactly when they agree on the opcode and on the inputs that
opcode reads (R63, R64, R66; the reserved code keeps `CW[0]` for its fault, R141; the codes are the
spec's decision D4, log 16). -/
def Obligations.DecodeAndEncodeAgree : Prop :=
  (∀ i : Instr, decode (encode i) = i) ∧
  (∀ c c' : Command, decode c = decode c' ↔
    (c.cw.extractLsb' 1 2 = c'.cw.extractLsb' 1 2 ∧
      (c.cw.extractLsb' 1 2 = 0b01#2 → c.key = c'.key ∧ c.iv = c'.iv) ∧
      (c.cw.getLsbD 2 = true → c.cw.getLsbD 0 = c'.cw.getLsbD 0)))

/-- R62, R63 and R66: the command word is `op` above `m`, with the `key` and `iv` ports beside it as they
are; the opcode map as match and mask; and the inputs each command ignores (ports and codes are the
spec's decision D4, log 16). That `RSVD` stops with its fault in every state is R65 and R141, the
spec's decision D5 (log 7). -/
def Obligations.OpcodeMapAndIgnoredInputs : Prop :=
  (∀ p : PortIn,
    p.command.cw.extractLsb' 1 2 = p.op ∧ p.command.cw.getLsbD 0 = p.m ∧
    p.command.key = p.key ∧ p.command.iv = p.iv) ∧
  (∀ c : Command,
    (c.cw &&& 0b110#3 = 0b000#3 → decode c = .idle) ∧
    (c.cw &&& 0b110#3 = 0b010#3 → decode c = .init c.key c.iv) ∧
    (c.cw &&& 0b110#3 = 0b100#3 → decode c = .next (c.cw.getLsbD 0)) ∧
    (c.cw &&& 0b110#3 = 0b110#3 → decode c = .rsvd (c.cw.getLsbD 0))) ∧
  (∀ c : Command, ∀ (k : Key) (v : IV), c.cw &&& 0b110#3 ≠ 0b010#3 →
    decode { c with key := k, iv := v } = decode c) ∧
  (∀ (m : Bit) (s : State), s.engine.AUTH = false → exec (.next m) s = exec (.next false) s) ∧
  (∀ (x : Bit) (s : State), ∃ cw, exec (.rsvd x) s = .fault (.reservedOp cw))

/-- The eight command words, written out from the table of R63 and the words of R69 (decisions D4 and
D19, log 16, log 23). -/
def Obligations.EveryWordDecodesAsTabled : Prop :=
  ∀ (k : Key) (v : IV),
    decode ⟨0b000#3, k, v⟩ = .idle ∧ decode ⟨0b001#3, k, v⟩ = .idle ∧
    decode ⟨0b010#3, k, v⟩ = .init k v ∧ decode ⟨0b011#3, k, v⟩ = .init k v ∧
    decode ⟨0b100#3, k, v⟩ = .next false ∧ decode ⟨0b101#3, k, v⟩ = .next true ∧
    decode ⟨0b110#3, k, v⟩ = .rsvd false ∧ decode ⟨0b111#3, k, v⟩ = .rsvd true

/-- R74: one command, one transaction. `step` takes the oldest thing the host has issued and performs
it; with nothing issued it keeps the state (the model's choice, log 4). The queue is the model's (log
3). The tag read as an event is log 5, and the ports beside a table word carry zeros (log 16). -/
def Obligations.StepPerformsTheIssuedCommand : Prop :=
  (∀ (s : State) (c : Command) (rest : List HostEvent), s.inputs = .command c :: rest →
    step s = exec (decode c) { s with inputs := rest }) ∧
  (∀ (s : State) (rest : List HostEvent), s.inputs = .readTag :: rest →
    step s = readTag { s with inputs := rest }) ∧
  (∀ s : State, s.inputs = [] → step s = .next s) ∧
  (∀ (s : State) (nbits w : Nat) (i : Instr), decodeTableWord nbits w = some i →
    step (s.withFetchWord nbits w) = exec i s)

/-- R69, R13, R142: every line of the textual form assembles to its canonical word, an `INIT` line with
the written bits on the ports, index by index; a key or IV of the wrong length is a construction
error, and nothing else is. The textual form is the spec's decision D19; that the key's length is the
one reported when both are wrong is the model's own order (log 23). -/
def Obligations.AssemblerChecksLengthsAndKeepsBits : Prop :=
  (∀ l : AsmLine, (∃ c, assemble l = .ok c) ↔ l.wf = true) ∧
  (∃ c, assemble .idle = .ok c ∧ c.cw = 0b000#3) ∧
  (∃ c, assemble (.next false) = .ok c ∧ c.cw = 0b100#3) ∧
  (∃ c, assemble (.next true) = .ok c ∧ c.cw = 0b101#3) ∧
  (∃ c, assemble .nextDash = .ok c ∧ c.cw = 0b100#3) ∧
  (∃ c, assemble .rsvd = .ok c ∧ c.cw = 0b110#3) ∧
  (∀ key iv : BitText, key.length ≠ 128 →
    assemble (.init key iv) = .error (.keyLength key.length)) ∧
  (∀ key iv : BitText, key.length = 128 → iv.length ≠ 96 →
    assemble (.init key iv) = .error (.ivLength iv.length)) ∧
  (∀ key iv : BitText, key.length = 128 → iv.length = 96 →
    ∃ c, assemble (.init key iv) = .ok c ∧ c.cw = 0b010#3 ∧
      (∀ i < 128, key.toBits[i]? = some (c.key.getLsbD i)) ∧
      (∀ i < 96, iv.toBits[i]? = some (c.iv.getLsbD i))) ∧
  (∀ (ds : List (BitVec 4)) (i : Nat) (d : BitVec 4), ds[i]? = some d →
    ∀ j < 4, (BitText.hex ds).toBits[4 * i + j]? = some (d.getLsbD (3 - j)))

/-! ## The core clock step -/

/-- R81, R82, R85: the feedbacks and the output bit as the exclusive-OR of the spec's tap lists and
products; `f` also by the exponents of its feedback polynomial. -/
def Obligations.CoreClockFunctionsFollowTheTapLists : Prop :=
  ∀ x : Regs,
    lfsrFeedback x = xorOf ([0, 7, 38, 70, 81, 96].map x.L.getLsbD) ∧
    lfsrFeedback x = xorOf ([128, 121, 90, 58, 47, 32].map (fun e => x.L.getLsbD (128 - e))) ∧
    nfsrFeedback x = xorOf (x.L.getLsbD 0 :: ([0, 26, 56, 91, 96].map x.N.getLsbD ++
      [[3, 67], [11, 13], [17, 18], [27, 59], [40, 48], [61, 65], [68, 84], [88, 92, 93, 95],
       [22, 24, 25], [70, 78, 82]].map (fun t => t.all x.N.getLsbD))) ∧
    outputBit x = xorOf ([2, 15, 36, 45, 64, 73, 89].map x.N.getLsbD ++
      [x.L.getLsbD 93, outputFilter x])

/-- R83 with the binding of R84: the filter as the exclusive-OR of its five products. The binding is
the spec's decision D2, from general knowledge (log 8). -/
def Obligations.OutputFilterIsItsFiveProducts : Prop :=
  ∀ x : Regs, outputFilter x = xorOf [x.N.getLsbD 12 && x.L.getLsbD 8, x.L.getLsbD 13 && x.L.getLsbD 20,
      x.N.getLsbD 95 && x.L.getLsbD 42, x.L.getLsbD 60 && x.L.getLsbD 79,
      x.N.getLsbD 12 && x.N.getLsbD 95 && x.L.getLsbD 94]

/-- R10: a shift by one, at every width: bit 0 is discarded, every other bit moves to the next lower
index, the inserted bit becomes the top bit. -/
def Obligations.ShiftDiscardsBitZero : Prop :=
  ∀ (n : Nat) (x : BitVec (n + 1)) (v : Bit),
    (∀ i < n, (shr x v).getLsbD i = x.getLsbD (i + 1)) ∧ (shr x v).getLsbD n = v

/-- R80, R86, R89: one core clock step shifts both arrays by one position, inserts the feedbacks
exclusive-ORed with the output bit at index 127, and leaves everything else of the engine alone. -/
def Obligations.CoreClockShiftsAndInserts : Prop :=
  ∀ e : Engine,
    e.clock.2 = outputBit ⟨e.L, e.N⟩ ∧
    (∀ i < 127, e.clock.1.L.getLsbD i = e.L.getLsbD (i + 1)) ∧
    e.clock.1.L.getLsbD 127 = (lfsrFeedback ⟨e.L, e.N⟩ ^^ outputBit ⟨e.L, e.N⟩) ∧
    (∀ i < 127, e.clock.1.N.getLsbD i = e.N.getLsbD (i + 1)) ∧
    e.clock.1.N.getLsbD 127 = (nfsrFeedback ⟨e.L, e.N⟩ ^^ outputBit ⟨e.L, e.N⟩) ∧
    e.clock.1.A = e.A ∧ e.clock.1.R = e.R ∧ e.clock.1.AUTH = e.AUTH ∧ e.clock.1.PHASE = e.PHASE

/-- R93 (which the spec derives from R81 to R86): all zero and all one are fixed points, returning 0
and 1 for ever, and no number of core clock steps after the loads of an `INIT` leads into either. That
the steps of streaming are these too is conflict C2 (log 11). -/
def Obligations.FixedPointsAreUnreachable : Prop :=
  (∀ k, clockTimes k ⟨0, 0⟩ = ⟨0, 0⟩ ∧ outputAt ⟨0, 0⟩ k = false) ∧
  (∀ k, clockTimes k ⟨BitVec.allOnes 128, BitVec.allOnes 128⟩ =
      ⟨BitVec.allOnes 128, BitVec.allOnes 128⟩ ∧
    outputAt ⟨BitVec.allOnes 128, BitVec.allOnes 128⟩ k = true) ∧
  (∀ (key : Key) (iv : IV) (k : Nat),
    clockTimes k (loaded key iv) ≠ ⟨0, 0⟩ ∧
    clockTimes k (loaded key iv) ≠ ⟨BitVec.allOnes 128, BitVec.allOnes 128⟩)

/-- From R81 to R86: neither discarded bit is lost, so two different states of the arrays never meet
after the same number of core clock steps. -/
def Obligations.CoreClockLosesNoState : Prop :=
  ∀ (k : Nat) (x x' : Regs), clockTimes k x = clockTimes k x' → x = x'

/-- R94: what the functions read, how long an inserted bit travels before anything reads it, and that it
is read then: each feedback by its own array's bit 31 steps later, in every state; the output by a bit
of the LFSR 33 steps later and by a bit of the NFSR 32 steps later, in some. The output's reads go
through the filter, whose binding is decision D2 (log 8). -/
def Obligations.InsertedBitIsReadLate : Prop :=
  (∀ x x' : Regs, (∀ i ≤ 96, x.L.getLsbD i = x'.L.getLsbD i ∧ x.N.getLsbD i = x'.N.getLsbD i) →
    lfsrFeedback x = lfsrFeedback x' ∧ nfsrFeedback x = nfsrFeedback x') ∧
  (∀ x x' : Regs, (∀ i ≤ 94, x.L.getLsbD i = x'.L.getLsbD i) →
    (∀ i ≤ 95, x.N.getLsbD i = x'.N.getLsbD i) → outputBit x = outputBit x') ∧
  (∀ x x' : Regs,
    (∀ i < 127, x.L.getLsbD i = x'.L.getLsbD i ∧ x.N.getLsbD i = x'.N.getLsbD i) →
    (∀ k < 31, lfsrFeedback (clockTimes k x) = lfsrFeedback (clockTimes k x') ∧
      nfsrFeedback (clockTimes k x) = nfsrFeedback (clockTimes k x')) ∧
    (∀ k < 32, outputAt x k = outputAt x' k) ∧
    (x.N = x'.N → ∀ k < 33, outputAt x k = outputAt x' k)) ∧
  (∀ x x' : Regs, x.N = x'.N → onlyTopDiffers x.L x'.L →
    lfsrFeedback (clockTimes 31 x) ≠ lfsrFeedback (clockTimes 31 x')) ∧
  (∀ x x' : Regs, x.L = x'.L → onlyTopDiffers x.N x'.N →
    nfsrFeedback (clockTimes 31 x) ≠ nfsrFeedback (clockTimes 31 x')) ∧
  (∃ x x' : Regs, x.N = x'.N ∧ onlyTopDiffers x.L x'.L ∧ outputAt x 33 ≠ outputAt x' 33) ∧
  (∃ x x' : Regs, x.L = x'.L ∧ onlyTopDiffers x.N x'.N ∧ outputAt x 32 ≠ outputAt x' 32)

/-! ## INIT -/

/-- R101, R102, R103: what the loads of `INIT` put into the LFSR, the mode flag and the NFSR. -/
def Obligations.LoadsAreTheIvItsPaddingAndTheKey : Prop :=
  ∀ (key : Key) (iv : IV) (e : Engine),
    (∀ i < 96, (e.load key iv).L.getLsbD i = iv.getLsbD i) ∧
    (∀ i, 96 ≤ i → i ≤ 126 → (e.load key iv).L.getLsbD i = true) ∧
    (e.load key iv).L.getLsbD 127 = false ∧
    (e.load key iv).AUTH = iv.getLsbD 0 ∧ (e.load key iv).AUTH = (e.load key iv).L.getLsbD 0 ∧
    (∀ i < 128, (e.load key iv).N.getLsbD i = key.getLsbD i)

/-- R101, R102, R103, R106: `INIT` completes from every state, loads and seeds, and leaves the port
registers and the host's queue alone. That no output is discarded first (decision D1, log 9), that
`A` and `R` are zero without authentication (decision D9, log 10) and that `PHASE` becomes `WARMED`
(decision D16, log 26) are decisions of the spec, and so is that it is accepted in every phase (R108,
decision D7, log 15). -/
def Obligations.InitLoadsAndSeeds : Prop :=
  ∀ (key : Key) (iv : IV) (s : State),
    ∃ e : Engine, exec (.init key iv) s = .next { s with engine := e } ∧
      e.AUTH = iv.getLsbD 0 ∧ e.PHASE = .warmed ∧
      (∀ i < 96, (loaded key iv).L.getLsbD i = iv.getLsbD i) ∧
      (∀ i, 96 ≤ i → i ≤ 126 → (loaded key iv).L.getLsbD i = true) ∧
      (loaded key iv).L.getLsbD 127 = false ∧ (loaded key iv).N = key ∧
      (iv.getLsbD 0 = false →
        e.L = (loaded key iv).L ∧ e.N = (loaded key iv).N ∧ e.A = 0 ∧ e.R = 0) ∧
      (iv.getLsbD 0 = true →
        ⟨e.L, e.N⟩ = clockTimes 64 (loaded key iv) ∧
        (∀ i < 32, e.A.getLsbD i = outputAt (loaded key iv) i) ∧
        (∀ i < 32, e.R.getLsbD i = outputAt (loaded key iv) (32 + i)))

/-- R108, R50: `INIT` does the same in every phase and whatever the engine held, and repeating it at
once changes nothing more (decision D7, log 15). Without authentication, that nothing of `A` and `R`
survives rests on `INIT` clearing both (decision D9, log 10). -/
def Obligations.InitForgetsTheEarlierRun : Prop :=
  ∀ (key : Key) (iv : IV) (s s' : State),
    ∃ e : Engine, exec (.init key iv) s = .next { s with engine := e } ∧
      exec (.init key iv) s' = .next { s' with engine := e } ∧
      exec (.init key iv) { s with engine := e } = .next { s with engine := e }

/-! ## NEXT and the keystream -/

/-- R111: `NEXT` without authentication completes after any `INIT`: one core clock step, the output
bit is the result (on `z`, log 6), nothing else of the machine changes but `PHASE` (decision D16,
log 26); and the `i`-th bit is the output of the `i`-th core clock step since the loads (no step is
discarded before: decision D1, log 9; the `INIT` may come in any phase: decision D7, log 15). The step feeds the output bit back into both arrays while
streaming too (conflict C2, log 11). -/
def Obligations.NextWithoutAuthentication : Prop :=
  (∀ (m : Bit) (s : State), s.engine.PHASE ≠ .uninit → s.engine.AUTH = false →
    exec (.next m) s = .next { s with
      engine := { s.engine with
        L := (clockRegs ⟨s.engine.L, s.engine.N⟩).L, N := (clockRegs ⟨s.engine.L, s.engine.N⟩).N,
        PHASE := .streaming }
      port := { s.port with z := outputBit ⟨s.engine.L, s.engine.N⟩ } }) ∧
  (∀ (key : Key) (iv : IV) (e : Engine) (M : List Bit), iv.getLsbD 0 = false →
    ((e.init key iv).keystream M).2 = (List.range M.length).map (outputAt (loaded key iv)))

/-- R112, R113: `NEXT` with authentication completes after any `INIT`: two core clock steps, the first
output is the result (on `z`, log 6), the second is diverted into the tag accumulation of R113: it
enters the shift register at index 31 (decision D21, log 12) after the accumulator has absorbed the
old shift register, lane by lane, when the message bit is 1. `AUTH`, the other port registers and
the host's queue are unchanged; `PHASE` becomes `STREAMING` (decision D16, log 26). The core clock steps feed their output bits back while streaming
too (conflict C2, log 11). -/
def Obligations.NextWithAuthentication : Prop :=
  ∀ (m : Bit) (s : State), s.engine.PHASE ≠ .uninit → s.engine.AUTH = true →
    ∃ e : Engine,
      exec (.next m) s = .next { s with
        engine := e, port := { s.port with z := outputAt ⟨s.engine.L, s.engine.N⟩ 0 } } ∧
      ⟨e.L, e.N⟩ = clockTimes 2 ⟨s.engine.L, s.engine.N⟩ ∧
      (∀ j < 32, e.A.getLsbD j = (s.engine.A.getLsbD j ^^ (m && s.engine.R.getLsbD j))) ∧
      (∀ j < 31, e.R.getLsbD j = s.engine.R.getLsbD (j + 1)) ∧
      e.R.getLsbD 31 = outputAt ⟨s.engine.L, s.engine.N⟩ 1 ∧
      e.AUTH = true ∧ e.PHASE = .streaming

/-- R126: `NEXT` faults before the first `INIT` and completes otherwise; it raises no other
fault (decision D6, log 7). -/
def Obligations.NextFaultsExactlyBeforeInit : Prop :=
  ∀ (m : Bit) (s : State),
    (s.engine.PHASE = .uninit → exec (.next m) s = .fault (.uninitUse .next)) ∧
    (s.engine.PHASE ≠ .uninit → ∃ t, exec (.next m) s = .next t)

/-- R119: the returned bits and the engine but for its accumulator do not depend on the message. -/
def Obligations.KeystreamIgnoresTheMessage : Prop :=
  ∀ (M M' : List Bit) (e : Engine), M.length = M'.length →
    (e.keystream M).2 = (e.keystream M').2 ∧
    { (e.keystream M).1 with A := 0 } = { (e.keystream M').1 with A := 0 }

/-- R116: as many bits as the message has, one or two core clock steps each; and counted from the
loads of `INIT`, which output is which keystream bit and which is diverted. The count from the loads
rests on no step being discarded (decision D1, log 9) and on `INIT` overwriting whatever the engine
held (decision D7, log 15), and the diverted bit is read at index 31 of the shift register, where it
enters (decision D21, log 12). The core clock steps feed their output bits back while streaming too
(conflict C2, log 11). -/
def Obligations.KeystreamLengthAndClockCount : Prop :=
  (∀ (M : List Bit) (e : Engine),
    (e.keystream M).2.length = M.length ∧
    (e.keystream M).1.regs = clockTimes ((if e.AUTH then 2 else 1) * M.length) e.regs) ∧
  (∀ (M : List Bit) (key : Key) (iv : IV) (e : Engine), iv.getLsbD 0 = true →
    ((e.init key iv).keystream M).1.regs = clockTimes (64 + 2 * M.length) (loaded key iv) ∧
    ((e.init key iv).keystream M).2 =
      (List.range M.length).map (fun i => outputAt (loaded key iv) (64 + 2 * i)) ∧
    (∀ i < M.length, (shiftRegAt M (i + 1) (e.init key iv)).getLsbD 31 =
      outputAt (loaded key iv) (64 + 2 * i + 1)))

/-- R120: the tag is the seed bits exclusive-ORed with the shift registers met by the message bits
that are 1; and in terms of the outputs alone (lanes and direction: decision D21, log 12; the count of
outputs from the loads: decision D1, log 9; `INIT` whatever the engine held: decision D7, log 15). The
core clock steps feed their output bits back while streaming too (conflict C2, log 11). -/
def Obligations.TagClosedForm : Prop :=
  (∀ (M : List Bit) (e : Engine), e.AUTH = true → ∀ j < 32,
    (e.keystream M).1.A.getLsbD j = (e.A.getLsbD j ^^ xorOf ((List.range M.length).map
      (fun i => M.getD i false && (shiftRegAt M i e).getLsbD j)))) ∧
  (∀ (M : List Bit) (key : Key) (iv : IV) (e : Engine), iv.getLsbD 0 = true →
    (∀ i ≤ M.length, ∀ j < 32,
      (shiftRegAt M i (e.init key iv)).getLsbD j = macStream (loaded key iv) (i + j)) ∧
    (∀ j < 32, ((e.init key iv).keystream M).1.A.getLsbD j =
      (outputAt (loaded key iv) j ^^ xorOf ((List.range M.length).map
        (fun i => M.getD i false && macStream (loaded key iv) (i + j))))))

/-- R127: the engine does not know where a message ends; two keystream calls are one on the
concatenated message (decision D20, log 14). -/
def Obligations.KeystreamContinues : Prop :=
  ∀ (M M' : List Bit) (e : Engine),
    e.keystream (M ++ M') =
      (((e.keystream M).1.keystream M').1, (e.keystream M).2 ++ ((e.keystream M).1.keystream M').2)

/-- R115: the empty message issues nothing, returns nothing and changes nothing; its tag with
authentication is the 32 seed bits, the first outputs after the loads (decision D1, log 9), whatever
the engine held before (decision D7, log 15). -/
def Obligations.EmptyMessageChangesNothing : Prop :=
  pseudoKeystream [] = [] ∧
  (∀ e : Engine, e.keystream [] = (e, [])) ∧
  (∀ (key : Key) (iv : IV) (e : Engine), iv.getLsbD 0 = true → ∀ j < 32,
    ((e.init key iv).keystream []).1.A.getLsbD j = outputAt (loaded key iv) j)

/-- R70, R114: `KEYSTREAM len, M` issued as `len` commands runs to completion after any `INIT`, with
the engine and the returned bits of the fold, as the call on the engine does; the last returned bit
stays on `z` (log 6). Before any `INIT` its first `NEXT` faults (R126; decision D6, log 7). The queue
of commands is the model's (log 3). -/
def Obligations.KeystreamIsItsNexts : Prop :=
  ∀ (M : List Bit) (s : State),
    (s.engine.PHASE ≠ .uninit →
      runEvents (pseudoKeystream M) s = .next { s with
        engine := (s.engine.keystream M).1
        port := { s.port with z := (s.engine.keystream M).2.getLastD s.port.z }
        inputs := [] } ∧
      outcome M.length (s.withInputs (pseudoKeystream M)) =
        (s.engine.keystream M).2.map Observation.bit ∧
      s.engine.keystreamCall M = .next (s.engine.keystream M)) ∧
    (s.engine.PHASE = .uninit → M ≠ [] →
      runEvents (pseudoKeystream M) s = .fault (.uninitUse .next) ∧
      outcome M.length (s.withInputs (pseudoKeystream M)) = [] ∧
      s.engine.keystreamCall M = .fault (.uninitUse .next))

/-- R70, R43: `KEYSTREAM.B n, B` is `8n` `NEXT` commands, byte `k` supplying commands `8k` to `8k+7`
in the order of `byteBitOrder` (open, an argument: log 22), none for the empty sequence. After any
`INIT` it runs to completion with the engine and the returned bits of the fold over those bits (the
last one on `z`, log 6); before any `INIT` its first `NEXT` faults (R126; decision D6, log 7). The
queue of commands is the model's (log 3). -/
def Obligations.KeystreamBytesIsItsNexts : Prop :=
  ∀ (o : Config.ByteBitOrder) (B : List Byte) (s : State),
    (pseudoKeystreamBytes o B).length = 8 * B.length ∧
    (∀ (k : Nat) (b : Byte), B[k]? = some b → ∀ j < 8,
      (pseudoKeystreamBytes o B)[8 * k + j]? = some (issue (.next (match o with
        | .msbFirst => b.getLsbD (7 - j)
        | .lsbFirst => b.getLsbD j)))) ∧
    (s.engine.PHASE ≠ .uninit →
      runEvents (pseudoKeystreamBytes o B) s = .next { s with
        engine := (s.engine.keystream (Adapter.bitsOfBytes o B)).1
        port := { s.port with
          z := (s.engine.keystream (Adapter.bitsOfBytes o B)).2.getLastD s.port.z }
        inputs := [] } ∧
      outcome (8 * B.length) (s.withInputs (pseudoKeystreamBytes o B)) =
        (s.engine.keystream (Adapter.bitsOfBytes o B)).2.map Observation.bit ∧
      Adapter.keystreamBytes o B s.engine =
        .next (s.engine.keystream (Adapter.bitsOfBytes o B))) ∧
    (s.engine.PHASE = .uninit → B ≠ [] →
      runEvents (pseudoKeystreamBytes o B) s = .fault (.uninitUse .next) ∧
      outcome (8 * B.length) (s.withInputs (pseudoKeystreamBytes o B)) = [] ∧
      Adapter.keystreamBytes o B s.engine = .fault (.uninitUse .next))

/-! ## IDLE, TAG, RSVD -/

/-- R134: `IDLE` completes in every state and changes nothing (decision D4, log 16). -/
def Obligations.IdleChangesNothing : Prop := ∀ s : State, exec .idle s = .next s

/-- R128: `IDLE` commands and tag reads between other commands change neither the end of a run nor the
keystream bits it returns. That `IDLE` changes nothing is decision D4 (log 16), the tag read as an
event is log 5, and the returned bits are observed on `z` (log 6). -/
def Obligations.QuietEventsAreInvisible : Prop :=
  ∀ (evs : List HostEvent) (s : State), s.engine.PHASE ≠ .uninit →
    runEvents evs s = runEvents (evs.filter (fun ev => !isQuiet ev)) s ∧
    bitsOf (outcome evs.length (s.withInputs evs)) =
      bitsOf (outcome (evs.filter (fun ev => !isQuiet ev)).length
        (s.withInputs (evs.filter (fun ev => !isQuiet ev))))

/-- R130, R133: a tag read returns the accumulator and changes nothing but the host's queue; before
the first `INIT` it faults (decision D6, log 7; the read as an event, log 5). -/
def Obligations.TagReadReturnsTheAccumulator : Prop :=
  ∀ (s : State) (rest : List HostEvent), s.inputs = .readTag :: rest →
    (s.engine.PHASE = .uninit →
      s.engine.tag = .fault (.uninitUse .tag) ∧ step s = .fault (.uninitUse .tag)) ∧
    (s.engine.PHASE ≠ .uninit →
      s.engine.tag = .next s.engine.A ∧ step s = .next { s with inputs := rest } ∧
      observe s { s with inputs := rest } = [.tag s.engine.A])

/-- R132: without authentication every tag read of the instance returns 32 zero bits (decision D9, log
10); the `INIT` may come in any phase (decision D7, log 15), and a tag read is an event (log 5). -/
def Obligations.TagIsZeroWithoutAuthentication : Prop :=
  ∀ (key : Key) (iv : IV) (evs : List HostEvent) (s t : State), iv.getLsbD 0 = false →
    (∀ ev ∈ evs, isInit ev = false) →
    runEvents (pseudoConstruct key iv ++ evs) s = .next t → t.engine.tag = .next 0#32

/-- R65: the reserved code faults in every state, recording the command word (decision D5, log 7). -/
def Obligations.ReservedCodeFaults : Prop :=
  ∀ (s : State),
    exec (.rsvd false) s = .fault (.reservedOp 0b110#3) ∧
    exec (.rsvd true) s = .fault (.reservedOp 0b111#3)

/-! ## Whole-machine rules -/

/-- R141: a step faults in exactly the two situations the spec names, and is never refused (decisions
D5, D6, log 7). The tag read as an event is log 5, that nothing happens with nothing issued is log 4,
and the codes are decision D4 (log 16). -/
def Obligations.OnlyTheTwoFaults : Prop :=
  (∀ (s : State) (r : Refusal), step s ≠ .refused r) ∧
  (∀ (s : State) (f : Fault), step s = .fault f ↔
    (s.engine.PHASE = .uninit ∧ f = .uninitUse .tag ∧ ∃ rest, s.inputs = .readTag :: rest) ∨
    (s.engine.PHASE = .uninit ∧ f = .uninitUse .next ∧
      ∃ c rest, s.inputs = .command c :: rest ∧ c.cw.extractLsb' 1 2 = 0b10#2) ∨
    (∃ c rest, s.inputs = .command c :: rest ∧ c.cw.extractLsb' 1 2 = 0b11#2 ∧
      f = .reservedOp c.cw))

/-- R145, R146, R174: a fault ends the run for good, and nothing is observed from it on (decision
D17, log 25). -/
def Obligations.FaultsAreFinal : Prop :=
  ∀ (k j : Nat) (s t : State) (f : Fault), run k s = .next t → step t = .fault f →
    run (k + 1 + j) s = .fault f ∧ outcome (k + 1 + j) s = outcome k s

/-- R25: only `INIT` writes `AUTH`, and it sets it to the IV's bit 0. And R26, whose three values are
the spec's decision D16 (log 26), with `INIT` accepted in every phase (decision D7, log 15): `PHASE`
leaves `UNINIT` only by `INIT`, never returns to it, and no step but `INIT` leads to `WARMED`. The tag
read as an event is log 5; a step with nothing issued keeps the state, log 4. -/
def Obligations.AuthAndPhaseTransitions : Prop :=
  ∀ s t : State, step s = .next t →
    (∀ c rest key iv, s.inputs = .command c :: rest → decode c = .init key iv →
      t.engine.AUTH = iv.getLsbD 0 ∧ t.engine.PHASE = .warmed) ∧
    ((∀ c rest key iv, s.inputs = .command c :: rest → decode c ≠ .init key iv) →
      t.engine.AUTH = s.engine.AUTH ∧
      (t.engine.PHASE = .uninit ↔ s.engine.PHASE = .uninit) ∧
      (t.engine.PHASE = .warmed → s.engine.PHASE = .warmed))

/-- R35, R93: every step keeps mode gating and keeps the state arrays out of the fixed points. (That
`A` and `R` start at zero without authentication is decision D9, log 10; a step with nothing issued
keeps the state, log 4.) That a `NEXT` keeps the arrays out of all one rests on the output bit being
fed back while streaming too (conflict C2, log 11); `INIT` in every phase is decision D7 (log 15), and
a tag read as an event is log 5. -/
def Obligations.StepKeepsTheInvariant : Prop :=
  ∀ s t : State, s.Inv → step s = .next t → t.Inv

/-- The invariants hold right after reset. What reset gives `PHASE`, `busy` and `z_valid` is decision
D8; no value the model chose is read (log 1, log 2). -/
def Obligations.ResetHasTheInvariants : Prop := State.reset.Inv ∧ State.reset.PortInv

/-- R32, R161: what the registers hold before the first `INIT` never shows: it decides no fault, no
observation, and nothing after the `INIT` (decision D8). So the zeros of log 1 decide nothing. That
`A` and `R` do not survive an `INIT` without authentication rests on `INIT` clearing both (decision
D9, log 10) and overwriting the whole engine (decision D7, log 15); that a `NEXT` or a tag read stops
before the first `INIT` is decision D6 (log 7), and the tag read as an event is log 5. -/
def Obligations.UnloadedRegistersNeverShow : Prop :=
  ∀ s t : State, SameButUnloaded s t →
    ∀ k, Corresponds SameButUnloaded (run k s) (run k t) ∧ outcome k s = outcome k t

/-- R162, R163: a sequence of commands and tag reads runs to its end exactly when its order is legal.
That a model stops on the others is decisions D5 and D6 (log 7); `INIT` in every phase is decision D7
(log 15); a tag read as an event is log 5. That a fault ends the run is decision D17 (log 25). -/
def Obligations.LegalOrdersAreThoseThatComplete : Prop :=
  ∀ (evs : List HostEvent) (s : State),
    (∃ t, runEvents evs s = .next t) ↔ legalFrom s.engine.ready evs = true

/-- R121: construction, keystream and a tag read show the same whatever the machine held before. That
this takes in every phase rests on `INIT` being accepted in each of them (R108, decision D7, log 15),
and the tag read as an event of the host is log 5. Without authentication the tag is the same because
`INIT` clears `A` (decision D9, log 10). The returned bits are observed on `z` (log 6). -/
def Obligations.RepeatedRunsAgree : Prop :=
  ∀ (key : Key) (iv : IV) (M : List Bit) (s : State) (e : Engine),
    outcome (M.length + 2)
        (s.withInputs (pseudoConstruct key iv ++ pseudoKeystream M ++ pseudoTag)) =
      ((e.init key iv).keystream M).2.map Observation.bit ++
        [.tag ((e.init key iv).keystream M).1.A]

/-! ## The host and the engine together -/

/-- R122, R123: encrypting and decrypting gives the plaintext back, and re-deriving the tag over the
decrypted plaintext gives the tag of the encryption, whatever the engines held before (decision D7,
log 15). The message bits of a pass are the buffer's before the exclusive-OR (R118, decision D12,
log 13). -/
def Obligations.RoundTripAndTagConsistency : Prop :=
  ∀ (key : Key) (iv : IV) (P : List Bit) (e e' e'' : Engine),
    Adapter.combine key iv (Adapter.combine key iv P e) e' = P ∧
    (iv.getLsbD 0 = true →
      Adapter.passTag key iv (Adapter.combine key iv (Adapter.combine key iv P e) e') e'' =
        Adapter.passTag key iv P e)

/-- R124: flipping ciphertext bit `i` flips plaintext bit `i` and no other, and changes the
re-derived tag by `R_i`: it differs exactly when `R_i` is not all zero. The lanes and the direction of
the shift register are decision D21 (log 12), the message bits of a pass decision D12 (log 13), an
`INIT` whatever the engine held decision D7 (log 15). -/
def Obligations.TagSensitivityIsTheShiftRegister : Prop :=
  ∀ (key : Key) (iv : IV) (P : List Bit) (i : Nat) (e : Engine), iv.getLsbD 0 = true →
    i < P.length →
    Adapter.combine key iv (Adapter.flipBit i (Adapter.combine key iv P e)) e =
      Adapter.flipBit i P ∧
    Adapter.passTag key iv (Adapter.flipBit i P) e =
      Adapter.passTag key iv P e ^^^ shiftRegAt P i (e.init key iv) ∧
    (Adapter.passTag key iv (Adapter.flipBit i P) e ≠ Adapter.passTag key iv P e ↔
      shiftRegAt P i (e.init key iv) ≠ 0)

/-- R175: the source's concrete scenario, `CONSTRUCT`, `KEYSTREAM.B`, `TAG` issued to any machine,
under both byte orders, with the values the spec's rules give. They rest on decisions D1, D2, D9, D21,
on the message bits of a pass, D12, and on the output bit being fed back while streaming too, conflict
C2 (log 8, 9, 10, 11, 12, 13); that any machine takes the `INIT` is decision D7 (log 15), and the tag
read as an event is log 5. Bit strings have index 0 leftmost, and `reverse` reads a register as
index-order hex (R13). The returned bits are observed on `z` (log 6). -/
def Obligations.ConcreteScenario : Prop :=
  pseudoKeystreamBytes .msbFirst (Adapter.padMessage [0x41#8]) =
    pseudoKeystream [false, true, false, false, false, false, false, true,
      false, false, false, false, false, false, false, true] ∧
  (∀ s : State, outcome 18 (s.withInputs (pseudoConstruct 0#128 1#96 ++
      pseudoKeystreamBytes .msbFirst (Adapter.padMessage [0x41#8]) ++ pseudoTag)) =
    scenarioBits.map Observation.bit ++ [.tag (0x8364bc61#32).reverse]) ∧
  (∀ s : State, outcome 18 (s.withInputs (pseudoConstruct 0#128 1#96 ++
      pseudoKeystreamBytes .lsbFirst (Adapter.padMessage [0x41#8]) ++ pseudoTag)) =
    scenarioBits.map Observation.bit ++ [.tag (0xadf17b51#32).reverse])

/-- R43: the bit of a byte sequence at each index, for both byte orders (D10 leaves the order open,
log 22). -/
def Obligations.ByteOrderOfTheHost : Prop :=
  ∀ (bs : List Byte) (k : Nat) (b : Byte), bs[k]? = some b → ∀ j < 8,
    (Adapter.bitsOfBytes .msbFirst bs)[8 * k + j]? = some (b.getLsbD (7 - j)) ∧
    (Adapter.bitsOfBytes .lsbFirst bs)[8 * k + j]? = some (b.getLsbD j) ∧
    (∀ o, (Adapter.bitsOfBytes o bs).length = 8 * bs.length)

/-- R46, R143: a rendering of the tag puts each bit at its place, loses nothing, and two tags match
exactly when they are equal (D11 leaves the rendering open, log 22). -/
def Obligations.TagRenderingLosesNothing : Prop :=
  ∀ (o : Config.TagWordOrder) (a b : Reg32),
    (∀ j : Fin 32, (Adapter.tagWord o a).getLsbD (o.position j).val = a.getLsbD j.val) ∧
    (Adapter.tagWord o a = Adapter.tagWord o b ↔ a = b) ∧
    (Adapter.tagsMatch a b = true ↔ ∀ j < 32, a.getLsbD j = b.getLsbD j) ∧
    (Adapter.tagsMatch a b = true ↔ a = b)

/-- R149, R29: whatever the interleaving, each engine's run is its own run by as many steps as the
schedule gives it. The list may hold engines that have faulted: that such an engine stays so and stops
no other is the model's (log 21, log 25). -/
def Obligations.EnginesAreIndependent : Prop :=
  ∀ (schedule : List Nat) (es : Engines) (j : Nat),
    (runSchedule schedule es)[j]? =
      (es[j]?).map (fun o => andThen o (fun s => run (schedule.count j) s))

/-! ## The port binding -/

/-- R72: while a transaction is in progress the input ports are not looked at, and no fault arises; at an
edge with reset high nothing is sampled (decision D14). That such an edge leaves the engine alone is
the model's choice: the whole transaction took effect when it was accepted (log 18). -/
def Obligations.BusyEdgesIgnoreThePorts : Prop :=
  ∀ (T : Config.Timing) (p p' : PortIn) (s : State),
    (p.rst = false → p'.rst = false → s.port.busyLeft ≠ 0 →
      clockEdge T p s = clockEdge T p' s ∧
      ∃ t, clockEdge T p s = .next t ∧ t.engine = s.engine ∧ t.inputs = s.inputs) ∧
    (p.rst = true → p'.rst = true → clockEdge T p s = clockEdge T p' s)

/-- R160: an edge with reset high puts the machine into `UNINIT`, abandons a transaction in progress,
and drops `busy` and `z_valid` (decision D8, log 20). -/
def Obligations.PortResetAbandonsTheTransaction : Prop :=
  ∀ (T : Config.Timing) (p : PortIn) (s : State), p.rst = true →
    ∃ t, clockEdge T p s = .next t ∧ t.engine.PHASE = .uninit ∧ t.pins.busy = false ∧
      t.pins.zValid = false ∧ t.port.pending = none

/-- R61, R62, R71, R172: a `NEXT` accepted from the ports, with the message bit on `m`, keeps `busy` for `T_NEXT - 1` further cycles, with `z` and
`z_valid` untouched and low, then presents its bit with `z_valid = 1`, `busy = 0` and the engine
after the transaction; one further `IDLE` edge drops `z_valid` and keeps `z` (decision D13 leaves
`T_NEXT` open, log 19; the ports and codes are decision D4, log 16; the moment the engine changes is the model's choice, log 18). -/
def Obligations.PortDeliversNextInTime : Prop :=
  ∀ (T : Config.Timing) (p : PortIn) (ps : List PortIn) (s : State), T.Positive →
    s.engine.PHASE ≠ .uninit → s.port.busyLeft = 0 → p.rst = false → p.op = 0b10#2 →
    noReset ps →
    (ps.length + 1 < T.tNext s.engine.AUTH →
      ∃ t, runEdges T (p :: ps) s = .next t ∧ t.pins.busy = true ∧ t.pins.zValid = false ∧
        t.port.z = s.port.z) ∧
    (ps.length + 1 = T.tNext s.engine.AUTH →
      ∃ t, runEdges T (p :: ps) s = .next t ∧ t.engine = (s.engine.next p.m).1 ∧
        t.pins.busy = false ∧ t.pins.zValid = true ∧ t.pins.z = (s.engine.next p.m).2 ∧
        t.pins.tag = (s.engine.next p.m).1.A ∧
        ∀ q : PortIn, q.rst = false → q.op = 0b00#2 →
          ∃ u, clockEdge T q t = .next u ∧ u.engine = t.engine ∧ u.pins.busy = false ∧
            u.pins.zValid = false ∧ u.pins.z = t.pins.z)

/-- R61, R62, R71, R172: an `INIT` accepted from the ports, with its operands on `key` and `iv`, keeps
`busy` for `T_INIT - 1` further cycles and completes, with no result on `z` (decision D13, log 19;
decision D4, log 16; log 18). That it is accepted in every phase is R108, decision D7 (log 15). That
`z` keeps its value also where no `NEXT` has completed since reset
is the model's choice (log 27). -/
def Obligations.PortCompletesInitInTime : Prop :=
  ∀ (T : Config.Timing) (p : PortIn) (ps : List PortIn) (s : State),
    T.Positive → s.port.busyLeft = 0 → p.rst = false → p.op = 0b01#2 → noReset ps →
    (ps.length + 1 < T.tInit (p.iv.getLsbD 0) →
      ∃ t, runEdges T (p :: ps) s = .next t ∧ t.pins.busy = true ∧ t.pins.zValid = false) ∧
    (ps.length + 1 = T.tInit (p.iv.getLsbD 0) →
      ∃ t, runEdges T (p :: ps) s = .next t ∧ t.engine = s.engine.init p.key p.iv ∧
        t.pins.busy = false ∧ t.pins.zValid = false ∧ t.pins.z = s.port.z ∧
        t.pins.tag = (s.engine.init p.key p.iv).A)

/-- R61, R71: the output pins at all times. `busy` is 1 exactly while a transaction is in progress;
whenever it is 0, `z` shows the last bit and, once a key and IV are loaded, `tag` shows `A`; and an
edge without reset changes that bit only where it raises `z_valid`, that is where a `NEXT` completes.
(While `busy = 1` the spec leaves `z` and `tag` open: log 17. That the bit on `z` is also held before
the first `NEXT` of a run is the model's choice: log 27.) -/
def Obligations.OutputPinsFollowTheRegisters : Prop :=
  (∀ s : State,
    (s.pins.busy = true ↔ s.port.busyLeft ≠ 0) ∧ s.pins.zValid = s.port.zValid ∧
    (s.port.busyLeft = 0 → s.pins.z = s.port.z) ∧
    (s.port.busyLeft = 0 → s.engine.PHASE ≠ .uninit → s.pins.tag = s.engine.A)) ∧
  (∀ (T : Config.Timing) (p : PortIn) (s t : State), p.rst = false → clockEdge T p s = .next t →
    t.pins.zValid = false → t.port.z = s.port.z)

/-- R71: the invariant of the port registers is kept by every clock edge and by every transaction (a
transaction leaves all of them but `z` alone: log 6). A reset edge drops both (decision D8, log 20).
-/
def Obligations.PortRegistersStayConsistent : Prop :=
  (∀ (T : Config.Timing) (p : PortIn) (s t : State), s.PortInv →
    clockEdge T p s = .next t → t.PortInv) ∧
  (∀ s t : State, s.PortInv → step s = .next t → t.PortInv)

/-- R75: the port binding and the transactions give the same states, the same results and the same
faults; the binding adds only time (the spec derives it from R60, R71 and R8). That the engines agree
also where the last edge leaves `busy = 1` is the model's choice (log 18), and so is what a timing of
0 cycles, which R7 excludes, does (log 19). The queue of sampled commands is log 3. The faults are
decisions D5 and D6 (log 7), the returned bits of the transactions stand on `z` (log 6). -/
def Obligations.PortBindingRefinesTheTransactions : Prop :=
  ∀ (T : Config.Timing) (ps : List PortIn) (s : State), noReset ps → s.port.busyLeft = 0 →
    Corresponds (fun t u => t.engine = u.engine ∧
        (t.port.busyLeft = 0 → t.port.z = u.port.z ∧
          presentedBits T ps s = bitsOf (outcome (sampledEvents T ps s).length
            (s.withInputs (sampledEvents T ps s)))))
      (runEdges T ps s) (runEvents (sampledEvents T ps s) s)
end

