-- ==== Sys2Proof/Laws/Ops.lean ====
section
/-! SUPPORT. The shared operations, bit by bit, and what follows an outcome. -/

namespace Sys2Proof.Machine

/-- Every bit of a shifted register (00_scope.md R10). -/
theorem getLsbD_shr {n : Nat} (x : BitVec (n + 1)) (v : Bit) (i : Nat) :
    (shr x v).getLsbD i = if i = n then v else x.getLsbD (i + 1) := by
  unfold shr
  rw [BitVec.getLsbD_cons]
  by_cases h : i = n
  · simp [h]
  · by_cases hi : i < n
    · simp [h, hi, Nat.add_comm]
    · have : n + 1 ≤ i + 1 := by omega
      simp [h, hi, BitVec.getLsbD_of_ge x (i + 1) this]

/-- Every bit of a register after one bit was written. -/
theorem getLsbD_writeBit {n : Nat} (x : BitVec n) (i : Nat) (v : Bit) (j : Nat) (hj : j < n) :
    (writeBit x i v).getLsbD j = if j = i then v else x.getLsbD j := by
  have key : ((1#n) <<< i).getLsbD j = decide (j = i) := by
    rw [BitVec.getLsbD_shiftLeft]
    by_cases h : j = i
    · subst h; simp [hj]; omega
    · by_cases hlt : j < i
      · simp [hlt, h]
      · have : j - i ≠ 0 := by omega
        simp [hj, h, BitVec.getLsbD_one, this]
  have hor : (x ||| (1#n <<< i)).getLsbD j = (x.getLsbD j || decide (j = i)) := by
    rw [BitVec.getLsbD_or, key]
  have hand : (x &&& ~~~(1#n <<< i)).getLsbD j = (x.getLsbD j && !decide (j = i)) := by
    rw [BitVec.getLsbD_and, BitVec.getLsbD_not, key, decide_eq_true hj, Bool.true_and]
  cases v
  · show (x &&& ~~~(1#n <<< i)).getLsbD j = _
    rw [hand]; by_cases h : j = i <;> simp [h]
  · show (x ||| (1#n <<< i)).getLsbD j = _
    rw [hor]; by_cases h : j = i <;> simp [h]

/-- The bits of the loaded LFSR (R101). -/
theorem getLsbD_lfsrOf (iv : IV) (i : Nat) :
    (lfsrOf iv).getLsbD i = if i < 96 then iv.getLsbD i else decide (i < 127) := by
  have hpad : ∀ j, j < 32 → pad.getLsbD j = decide (j < 31) := by decide
  have h1 : (lfsrOf iv).getLsbD i = (pad ++ iv).getLsbD i := rfl
  rw [h1, BitVec.getLsbD_append]
  by_cases h : i < 96
  · simp [h]
  · by_cases h2 : i - 96 < 32
    · rw [if_neg h, if_neg h, hpad _ h2]
      simp only [decide_eq_decide]
      omega
    · rw [if_neg h, if_neg h, BitVec.getLsbD_of_ge pad _ (by omega)]
      simp only [Bool.false_eq, decide_eq_false_iff_not]
      omega

@[simp] theorem absorbed_true (r : Reg32) : absorbed true r = r := rfl
@[simp] theorem absorbed_false (r : Reg32) : absorbed false r = 0 := rfl

/-- Bit by bit, what the accumulator absorbs (R113). -/
@[simp] theorem getLsbD_absorbed (m : Bit) (r : Reg32) (j : Nat) :
    (absorbed m r).getLsbD j = (m && r.getLsbD j) := by
  cases m <;> simp [absorbed]

@[simp] theorem andThen_next {σ τ : Type} (s : σ) (k : σ → Host.Outcome τ Fault Refusal) :
    andThen (.next s) k = k s := rfl
@[simp] theorem andThen_fault {σ τ : Type} (f : Fault) (k : σ → Host.Outcome τ Fault Refusal) :
    andThen (.fault f) k = .fault f := rfl
@[simp] theorem andThen_refused {σ τ : Type} (r : Refusal)
    (k : σ → Host.Outcome τ Fault Refusal) : andThen (.refused r) k = .refused r := rfl

theorem andThen_assoc {σ τ υ : Type} (o : Host.Outcome σ Fault Refusal)
    (k : σ → Host.Outcome τ Fault Refusal) (l : τ → Host.Outcome υ Fault Refusal) :
    andThen (andThen o k) l = andThen o (fun s => andThen (k s) l) := by
  cases o <;> rfl

/-- A sequence answers a next state only through a next state of its first part. -/
theorem andThen_eq_next {σ τ : Type} {o : Host.Outcome σ Fault Refusal}
    {k : σ → Host.Outcome τ Fault Refusal} {t : τ} (h : andThen o k = .next t) :
    ∃ s, o = .next s ∧ k s = .next t := by
  cases o with
  | next s => exact ⟨s, rfl, h⟩
  | fault f => simp at h
  | refused r => simp at h

@[simp] theorem raise_eq {σ : Type} (f : Fault) :
    (raise f : Host.Outcome σ Fault Refusal) = .fault f := rfl

end Sys2Proof.Machine
end

