-- ==== Sys2Proof/Laws/State.lean ====
section
/-! SUPPORT. One lemma for each field and each update of the state, so that no later proof unfolds a
record update. -/

namespace Sys2Proof.Machine

variable (s : State) (e f : Engine) (x : Regs) (z v : Bit) (evs evs' : List HostEvent)

@[simp] theorem State.withEngine_engine : (s.withEngine e).engine = e := rfl
@[simp] theorem State.withEngine_port : (s.withEngine e).port = s.port := rfl
@[simp] theorem State.withEngine_inputs : (s.withEngine e).inputs = s.inputs := rfl
@[simp] theorem State.withEngine_withEngine :
    (s.withEngine e).withEngine f = s.withEngine f := rfl
@[simp] theorem State.withEngine_self : s.withEngine s.engine = s := rfl

@[simp] theorem State.deliver_engine : (s.deliver z).engine = s.engine := rfl
@[simp] theorem State.deliver_inputs : (s.deliver z).inputs = s.inputs := rfl
@[simp] theorem State.deliver_z : (s.deliver z).port.z = z := rfl
@[simp] theorem State.deliver_busyLeft : (s.deliver z).port.busyLeft = s.port.busyLeft := rfl
@[simp] theorem State.deliver_pending : (s.deliver z).port.pending = s.port.pending := rfl
@[simp] theorem State.deliver_zValid : (s.deliver z).port.zValid = s.port.zValid := rfl
@[simp] theorem State.deliver_draws : (s.deliver z).port.draws = s.port.draws := rfl
@[simp] theorem State.deliver_port : (s.deliver z).port = { s.port with z := z } := rfl

@[simp] theorem State.withInputs_engine : (s.withInputs evs).engine = s.engine := rfl
@[simp] theorem State.withInputs_port : (s.withInputs evs).port = s.port := rfl
@[simp] theorem State.withInputs_inputs : (s.withInputs evs).inputs = evs := rfl
@[simp] theorem State.withInputs_withInputs :
    (s.withInputs evs).withInputs evs' = s.withInputs evs' := rfl
@[simp] theorem State.withInputs_self : s.withInputs s.inputs = s := rfl
@[simp] theorem State.withEngine_withInputs :
    (s.withInputs evs).withEngine e = (s.withEngine e).withInputs evs := rfl
@[simp] theorem State.deliver_withInputs :
    (s.withInputs evs).deliver z = (s.deliver z).withInputs evs := rfl

@[simp] theorem Engine.regs_L : e.regs.L = e.L := rfl
@[simp] theorem Engine.regs_N : e.regs.N = e.N := rfl
@[simp] theorem Engine.withRegs_L : (e.withRegs x).L = x.L := rfl
@[simp] theorem Engine.withRegs_N : (e.withRegs x).N = x.N := rfl
@[simp] theorem Engine.withRegs_A : (e.withRegs x).A = e.A := rfl
@[simp] theorem Engine.withRegs_R : (e.withRegs x).R = e.R := rfl
@[simp] theorem Engine.withRegs_AUTH : (e.withRegs x).AUTH = e.AUTH := rfl
@[simp] theorem Engine.withRegs_PHASE : (e.withRegs x).PHASE = e.PHASE := rfl
@[simp] theorem Engine.regs_withRegs : (e.withRegs x).regs = x := rfl

@[simp] theorem Engine.stream_regs : e.stream.regs = e.regs := rfl
@[simp] theorem Engine.stream_L : e.stream.L = e.L := rfl
@[simp] theorem Engine.stream_N : e.stream.N = e.N := rfl
@[simp] theorem Engine.stream_A : e.stream.A = e.A := rfl
@[simp] theorem Engine.stream_R : e.stream.R = e.R := rfl
@[simp] theorem Engine.stream_AUTH : e.stream.AUTH = e.AUTH := rfl
@[simp] theorem Engine.stream_PHASE : e.stream.PHASE = .streaming := rfl

@[simp] theorem Engine.warm_regs : e.warm.regs = e.regs := rfl
@[simp] theorem Engine.warm_L : e.warm.L = e.L := rfl
@[simp] theorem Engine.warm_N : e.warm.N = e.N := rfl
@[simp] theorem Engine.warm_A : e.warm.A = e.A := rfl
@[simp] theorem Engine.warm_R : e.warm.R = e.R := rfl
@[simp] theorem Engine.warm_AUTH : e.warm.AUTH = e.AUTH := rfl
@[simp] theorem Engine.warm_PHASE : e.warm.PHASE = .warmed := rfl

end Sys2Proof.Machine
end

