-- ==== Sys2Proof/Laws/CoreClock.lean ====
section
/-! SUPPORT. The core clock step: its parts, and repeated steps. -/

namespace Sys2Proof.Machine

variable (e : Engine) (x : Regs)

@[simp] theorem Engine.clock_regs : e.clock.1.regs = clockRegs e.regs :=
  Engine.regs_withRegs e (clockRegs e.regs)
@[simp] theorem Engine.clock_out : e.clock.2 = outputBit e.regs := by simp only [Engine.clock]
@[simp] theorem Engine.clock_A : e.clock.1.A = e.A := rfl
@[simp] theorem Engine.clock_R : e.clock.1.R = e.R := rfl
@[simp] theorem Engine.clock_AUTH : e.clock.1.AUTH = e.AUTH := rfl
@[simp] theorem Engine.clock_PHASE : e.clock.1.PHASE = e.PHASE := rfl

@[simp] theorem clockTimes_zero : clockTimes 0 x = x := rfl
theorem clockTimes_succ (k : Nat) : clockTimes (k + 1) x = clockTimes k (clockRegs x) := rfl

theorem clockTimes_add (j k : Nat) : clockTimes (j + k) x = clockTimes k (clockTimes j x) := by
  induction j generalizing x with
  | zero => simp
  | succ j ih => rw [Nat.succ_add, clockTimes_succ, clockTimes_succ, ih]

/-- The last of several steps, seen from the end. -/
theorem clockTimes_succ_last (k : Nat) :
    clockTimes (k + 1) x = clockRegs (clockTimes k x) := clockTimes_add x k 1

theorem outputAt_add (j k : Nat) : outputAt x (j + k) = outputAt (clockTimes j x) k := by
  unfold outputAt; rw [clockTimes_add]

@[simp] theorem outputAt_zero : outputAt x 0 = outputBit x := by
  simp only [outputAt, clockTimes_zero]

/-- Every bit of the LFSR after a core clock step (R86). -/
theorem getLsbD_clockRegs_L (i : Nat) : (clockRegs x).L.getLsbD i =
    if i = 127 then (lfsrFeedback x ^^ outputBit x) else x.L.getLsbD (i + 1) :=
  getLsbD_shr (n := 127) x.L _ i

/-- Every bit of the NFSR after a core clock step (R86). -/
theorem getLsbD_clockRegs_N (i : Nat) : (clockRegs x).N.getLsbD i =
    if i = 127 then (nfsrFeedback x ^^ outputBit x) else x.N.getLsbD (i + 1) :=
  getLsbD_shr (n := 127) x.N _ i

/-- Discarded steps move the state arrays and nothing else. -/
theorem Engine.discard_eq (k : Nat) : e.discard k = e.withRegs (clockTimes k e.regs) := by
  induction k generalizing e with
  | zero => rfl
  | succ k ih => exact ih _

end Sys2Proof.Machine
end

