-- ==== Sys2Proof/Laws/Decode.lean ====
section
/-! SUPPORT. The decoder by its fields, and the eight command words. -/

namespace Sys2Proof

/-- The decoder, its two fields written out (R62, R63). -/
theorem decode_by_fields (c : Command) : decode c =
    if c.cw.extractLsb' 1 2 = 0b00#2 then .idle
    else if c.cw.extractLsb' 1 2 = 0b01#2 then .init c.key c.iv
    else if c.cw.extractLsb' 1 2 = 0b10#2 then .next (c.cw.getLsbD 0)
    else .rsvd (c.cw.getLsbD 0) := rfl

/-- There are eight command words. -/
theorem commandWord_cases (w : CommandWord) :
    w = 0#3 ∨ w = 1#3 ∨ w = 2#3 ∨ w = 3#3 ∨ w = 4#3 ∨ w = 5#3 ∨ w = 6#3 ∨ w = 7#3 := by
  revert w; decide

/-- The fields of an assembled word are what it was assembled from (R62). -/
theorem extract_commandWord (op : BitVec 2) (m : Bit) :
    (commandWord op m).extractLsb' 1 2 = op ∧ (commandWord op m).getLsbD 0 = m := by
  revert op m; decide

end Sys2Proof
end

