-- ==== Sys2Proof/Laws/Init.lean ====
section
/-! SUPPORT. Initialisation: what a seeding loop leaves, and what the loads leave. -/

namespace Sys2Proof.Machine

variable (e : Engine)

/-- A seeding loop of the accumulator moves the state arrays by its number of steps and touches
nothing else but `A`. -/
theorem Engine.seedAcc_frame (k i : Nat) :
    (e.seedAcc k i).regs = clockTimes k e.regs ∧ (e.seedAcc k i).R = e.R ∧
      (e.seedAcc k i).AUTH = e.AUTH ∧ (e.seedAcc k i).PHASE = e.PHASE := by
  induction k generalizing e i with
  | zero => exact ⟨rfl, rfl, rfl, rfl⟩
  | succ k ih => exact ih _ _

/-- The bits a seeding loop writes into the accumulator: output `j` at index `i + j`, the others
kept. -/
theorem Engine.seedAcc_bits (k i j : Nat) (hj : j < 32) :
    (e.seedAcc k i).A.getLsbD j =
      if i ≤ j ∧ j < i + k then outputAt e.regs (j - i) else e.A.getLsbD j := by
  induction k generalizing e i with
  | zero => rw [if_neg (by omega)]; rfl
  | succ k ih =>
    refine (ih _ _).trans ?_
    by_cases h : i + 1 ≤ j ∧ j < i + 1 + k
    · rw [if_pos h, if_pos (by omega)]
      have : j - i = 1 + (j - (i + 1)) := by omega
      rw [this, outputAt_add]; rfl
    · rw [if_neg h]
      refine (getLsbD_writeBit _ _ _ _ hj).trans ?_
      by_cases h2 : j = i
      · subst h2; simp
      · rw [if_neg h2, if_neg (by omega)]

/-- A seeding loop of the shift register moves the state arrays by its number of steps and touches
nothing else but `R`. -/
theorem Engine.seedSr_frame (k i : Nat) :
    (e.seedSr k i).regs = clockTimes k e.regs ∧ (e.seedSr k i).A = e.A ∧
      (e.seedSr k i).AUTH = e.AUTH ∧ (e.seedSr k i).PHASE = e.PHASE := by
  induction k generalizing e i with
  | zero => exact ⟨rfl, rfl, rfl, rfl⟩
  | succ k ih => exact ih _ _

/-- The bits a seeding loop writes into the shift register. -/
theorem Engine.seedSr_bits (k i j : Nat) (hj : j < 32) :
    (e.seedSr k i).R.getLsbD j =
      if i ≤ j ∧ j < i + k then outputAt e.regs (j - i) else e.R.getLsbD j := by
  induction k generalizing e i with
  | zero => rw [if_neg (by omega)]; rfl
  | succ k ih =>
    refine (ih _ _).trans ?_
    by_cases h : i + 1 ≤ j ∧ j < i + 1 + k
    · rw [if_pos h, if_pos (by omega)]
      have : j - i = 1 + (j - (i + 1)) := by omega
      rw [this, outputAt_add]; rfl
    · rw [if_neg h]
      refine (getLsbD_writeBit _ _ _ _ hj).trans ?_
      by_cases h2 : j = i
      · subst h2; simp
      · rw [if_neg h2, if_neg (by omega)]

variable (key : Key) (iv : IV)

/-- What the loads leave (R101 to R104). -/
theorem Engine.load_eq : e.load key iv =
    { L := lfsrOf iv, N := key, A := 0, R := 0, AUTH := iv.getLsbD 0, PHASE := e.PHASE } := by
  have h : (lfsrOf iv).getLsbD 0 = iv.getLsbD 0 := by
    rw [getLsbD_lfsrOf, if_pos (by decide)]
  show Engine.mk (lfsrOf iv) key 0 0 ((lfsrOf iv).getLsbD 0) e.PHASE = _
  rw [h]

/-- Without authentication the seeding step performs nothing (R106). -/
theorem Engine.seed_off (h : e.AUTH = false) : e.seed = e := by
  unfold Engine.seed; rw [h]; rfl

/-- With authentication it is the two seeding loops (R106). -/
theorem Engine.seed_on (h : e.AUTH = true) : e.seed = (e.seedAcc 32 0).seedSr 32 0 := by
  unfold Engine.seed; rw [h]; rfl

/-- No output is discarded (R105): `INIT` is the loads, the seeding and the phase. -/
theorem Engine.init_eq : e.init key iv = ((e.load key iv).seed).warm := rfl

@[simp] theorem Engine.init_PHASE : (e.init key iv).PHASE = .warmed := rfl

end Sys2Proof.Machine
end

