-- ==== Sys2Proof/Laws/Keystream.lean ====
section
/-! SUPPORT. One keystream position, item by item, in both modes. -/

namespace Sys2Proof.Machine

variable (m : Bit) (e : Engine)

/-- The returned bit, in either mode, is the output of the next core clock step (R111, R112). -/
@[simp] theorem Engine.next_out : (e.next m).2 = outputBit e.regs := by
  unfold Engine.next; split <;> rfl

@[simp] theorem Engine.next_regs :
    (e.next m).1.regs = clockTimes (clocksPerBit e.AUTH) e.regs := by
  unfold Engine.next; split <;> simp_all [clocksPerBit] <;> rfl

@[simp] theorem Engine.next_AUTH : (e.next m).1.AUTH = e.AUTH := by
  unfold Engine.next; split <;> rfl

@[simp] theorem Engine.next_PHASE : (e.next m).1.PHASE = .streaming := by
  unfold Engine.next; split <;> rfl

theorem Engine.next_A_plain (h : e.AUTH = false) : (e.next m).1.A = e.A := by
  unfold Engine.next; rw [h]; rfl

theorem Engine.next_R_plain (h : e.AUTH = false) : (e.next m).1.R = e.R := by
  unfold Engine.next; rw [h]; rfl

theorem Engine.next_A_auth (h : e.AUTH = true) :
    (e.next m).1.A = e.A ^^^ absorbed m e.R := by
  unfold Engine.next; rw [if_pos h]; rfl

theorem Engine.next_R_auth (h : e.AUTH = true) :
    (e.next m).1.R = shr e.R (outputAt e.regs 1) := by
  unfold Engine.next; rw [if_pos h]; rfl

@[simp] theorem Engine.keystream_nil : e.keystream [] = (e, []) := rfl

theorem Engine.keystream_cons (ms : List Bit) : e.keystream (m :: ms) =
    (((e.next m).1.keystream ms).1, (e.next m).2 :: ((e.next m).1.keystream ms).2) := rfl

@[simp] theorem Engine.keystream_AUTH (M : List Bit) : (e.keystream M).1.AUTH = e.AUTH := by
  induction M generalizing e with
  | nil => rfl
  | cons m ms ih => exact (ih _).trans (e.next_AUTH m)

/-- The call on an initialised engine is the total function. -/
theorem Engine.nextCall_ready (h : e.PHASE ≠ .uninit) : e.nextCall m = .next (e.next m) :=
  if_neg h

/-- The call before any `INIT` faults (R126). -/
theorem Engine.nextCall_uninit (h : e.PHASE = .uninit) :
    e.nextCall m = .fault (.uninitUse .next) := if_pos h

/-- The calls of a whole message on an initialised engine are the fold. -/
theorem Engine.keystreamCall_ready (M : List Bit) (h : e.PHASE ≠ .uninit) :
    e.keystreamCall M = .next (e.keystream M) := by
  induction M generalizing e with
  | nil => rfl
  | cons m ms ih =>
    have hp : (e.next m).1.PHASE ≠ .uninit := by rw [Engine.next_PHASE]; decide
    simp only [Engine.keystreamCall, Engine.nextCall_ready m e h, andThen_next, ih _ hp]
    rfl

/-- Before any `INIT` the first call faults. -/
theorem Engine.keystreamCall_uninit (ms : List Bit) (h : e.PHASE = .uninit) :
    e.keystreamCall (m :: ms) = .fault (.uninitUse .next) := by
  simp only [Engine.keystreamCall, Engine.nextCall_uninit m e h, andThen_fault]

end Sys2Proof.Machine
end

