-- ==== Sys2Proof/Laws/PerInstr.lean ====
section
/-! SUPPORT. Statements made for each instruction as syntax. -/

namespace Sys2Proof.Laws.TableRow

/-- The canonical word of an instruction lies in the opcode row that bears its mnemonic (spec
30_encoding.md R63). -/
def Statement (i : Instr) : Prop := (rowOf (encode i).cw).map OpcodeRow.mnemonic = some i.mnemonic

theorem idle : Statement .idle := by unfold Statement; decide
theorem init (key : Key) (iv : IV) : Statement (.init key iv) :=
  show (rowOf (commandWord 0b01#2 false)).map OpcodeRow.mnemonic = some "INIT" by decide
theorem next (m : Bit) : Statement (.next m) := by unfold Statement; cases m <;> decide
theorem rsvd (x : Bit) : Statement (.rsvd x) := by unfold Statement; cases x <;> decide

end Sys2Proof.Laws.TableRow
end

