-- ==== Sys2Proof/Laws/Step.lean ====
section
/-! SUPPORT. What a step can do, said once; runs and their outcomes. -/

namespace Sys2Proof.Machine

@[simp] theorem step_withInputs_nil (s : State) :
    step (s.withInputs []) = .next (s.withInputs []) := rfl

@[simp] theorem step_withInputs_command (s : State) (c : Command) (rest : List HostEvent) :
    step (s.withInputs (.command c :: rest)) = exec (decode c) (s.withInputs rest) := rfl

@[simp] theorem step_withInputs_readTag (s : State) (rest : List HostEvent) :
    step (s.withInputs (.readTag :: rest)) = readTag (s.withInputs rest) := rfl

/-- `NEXT` once `PHASE` is not `UNINIT`. -/
theorem exec_next_ready (m : Bit) (s : State) (h : s.engine.PHASE ≠ .uninit) :
    exec (.next m) s =
      .next ((s.withEngine (s.engine.next m).1).deliver (s.engine.next m).2) := by
  show andThen (s.engine.nextCall m) _ = _
  rw [Engine.nextCall_ready m _ h, andThen_next]

/-- `NEXT` before any `INIT`. -/
theorem exec_next_uninit (m : Bit) (s : State) (h : s.engine.PHASE = .uninit) :
    exec (.next m) s = .fault (.uninitUse .next) := by
  show andThen (s.engine.nextCall m) _ = _
  rw [Engine.nextCall_uninit m _ h, andThen_fault]

/-- Everything `exec` can answer a next state with: nothing happened (`IDLE`), a fresh engine
(`INIT`), or one keystream position (`NEXT`, after an `INIT`). -/
theorem exec_next_cases {i : Instr} {s t : State} (h : exec i s = .next t) :
    (i = .idle ∧ t = s) ∨
    (∃ key iv, i = .init key iv ∧ t = s.withEngine (s.engine.init key iv)) ∨
    (∃ m, i = .next m ∧ s.engine.PHASE ≠ .uninit ∧
      t = (s.withEngine (s.engine.next m).1).deliver (s.engine.next m).2) := by
  cases i with
  | idle => exact .inl ⟨rfl, by injection h with h; exact h.symm⟩
  | init key iv => exact .inr (.inl ⟨key, iv, rfl, by injection h with h; exact h.symm⟩)
  | next m =>
    refine .inr (.inr ⟨m, rfl, ?_⟩)
    have hp : s.engine.PHASE ≠ .uninit := fun hp => by
      rw [exec_next_uninit m s hp] at h; cases h
    rw [exec_next_ready m s hp] at h
    injection h with h
    exact ⟨hp, h.symm⟩
  | rsvd x => cases h

/-- Everything a step can answer a next state with. -/
theorem step_next_cases {s t : State} (h : step s = .next t) :
    (s.inputs = [] ∧ t = s) ∨
    (∃ rest, s.inputs = .readTag :: rest ∧ s.engine.PHASE ≠ .uninit ∧ t = s.withInputs rest) ∨
    (∃ c rest, s.inputs = .command c :: rest ∧ exec (decode c) (s.withInputs rest) = .next t) := by
  unfold step at h
  split at h
  · next hi => injection h with h; exact .inl ⟨hi, h.symm⟩
  · next c rest hi => exact .inr (.inr ⟨c, rest, hi, h⟩)
  · next rest hi =>
    unfold readTag Engine.tag at h
    split at h
    · cases h
    · next hp => injection h with h; exact .inr (.inl ⟨rest, hi, hp, h.symm⟩)

@[simp] theorem run_zero (s : State) : run 0 s = .next s := rfl

theorem run_succ (k : Nat) (s : State) : run (k + 1) s = andThen (step s) (run k) := by
  cases h : step s <;> simp [run, Host.Core.run, core, h]

/-- A run in two parts. -/
theorem run_add (j k : Nat) (s : State) : run (j + k) s = andThen (run j s) (run k) := by
  induction j generalizing s with
  | zero => simp
  | succ j ih =>
    rw [Nat.succ_add, run_succ, run_succ, andThen_assoc]
    congr 1
    funext t
    exact ih t

theorem runEvents_nil (s : State) : runEvents [] s = .next (s.withInputs []) := rfl

@[simp] theorem outcome_zero (s : State) : outcome 0 s = [] := rfl

end Sys2Proof.Machine
end

