-- ==== Sys2Proof/Laws/Port.lean ====
section
/-! SUPPORT. What a clock edge can do, said once, and sequences of edges. -/

namespace Sys2Proof.Machine

variable (T : Config.Timing) (p : PortIn) (s : State)

/-- An edge with reset high. -/
theorem clockEdge_reset (h : p.rst = true) : clockEdge T p s = .next (portReset s) := by
  simp [clockEdge, h]

/-- An edge at which a command is sampled. -/
theorem clockEdge_free (h : p.rst = false) (hb : s.port.busyLeft = 0) :
    clockEdge T p s = acceptCommand T p.command s := by simp [clockEdge, h, hb]

/-- An edge at which the transaction in progress goes on. -/
theorem clockEdge_busy (h : p.rst = false) (hb : s.port.busyLeft ≠ 0) : clockEdge T p s =
    .next { s with port := (s.port.countDown (s.port.busyLeft - 1)).draw } := by
  simp [clockEdge, h, hb]

/-- A command that is accepted and does not fault. -/
theorem acceptCommand_next {c : Command} {t : State} (h : exec (decode c) s = .next t) :
    acceptCommand T c s = .next { t with port :=
      (s.port.accept (decode c) (cyclesOf T s.engine (decode c) - 1) t.port.z).draw } := by
  simp only [acceptCommand, h, andThen_next]

/-- A command that is accepted and faults. -/
theorem acceptCommand_fault {c : Command} {f : Fault} (h : exec (decode c) s = .fault f) :
    acceptCommand T c s = .fault f := by simp only [acceptCommand, h, andThen_fault]

theorem runEdges_nil : runEdges T [] s = .next s := rfl
theorem runEdges_cons (ps : List PortIn) :
    runEdges T (p :: ps) s = andThen (clockEdge T p s) (runEdges T ps) := rfl

/-- A sequence of edges in two parts. -/
theorem runEdges_append (ps qs : List PortIn) :
    runEdges T (ps ++ qs) s = andThen (runEdges T ps s) (runEdges T qs) := by
  induction ps generalizing s with
  | nil => rfl
  | cons p ps ih =>
    rw [List.cons_append, runEdges_cons, runEdges_cons, andThen_assoc]
    congr 1
    funext t
    exact ih t

end Sys2Proof.Machine
end

