-- ==== Sys2Proof/Tests/Slice0.lean ====
section
/-! SUPPORT. Small tests against the vectors of spec 95_test_vectors.md (derived there from the
spec's rules, not from this model), the smoke tests of WellFormed, words written out from the
encoding table, and a witness for the hypotheses of each statement. -/

namespace Sys2Proof.Tests

open Sys2Proof Sys2Proof.Machine Sys2Proof.Claims

/-- `x:` index-order hex read as a number: its most significant bit is index 0 (00_scope.md R13). -/
def ix (n v : Nat) : BitVec n := (BitVec.ofNat n v).reverse

/-- A register given as the set of its one-bits (R13). -/
def ones (is : List Nat) : Reg128 := BitVec.ofNat 128 (is.foldl (fun a i => a + 2 ^ i) 0)

/-- The next state, where there is one. -/
def nextOf {σ : Type} : Host.Outcome σ Fault Refusal → Option σ
  | .next s => some s
  | .fault _ => none
  | .refused _ => none

/-- The fault, where there is one. -/
def faultOf {σ : Type} : Host.Outcome σ Fault Refusal → Option Fault
  | .next _ => none
  | .fault f => some f
  | .refused _ => none

/-- A machine with the given engine and nothing else set. -/
def machineOf (e : Engine) : State := { State.reset with engine := e }

/-- The engine of vector I1 (all-zero key and IV). -/
def engineI1 : Engine := ⟨ix 128 0x000000000000000000000000fffffffe, 0, 0, 0, false, .warmed⟩

/-- The engine of vector I2 (all-zero key, `iv = {0}`). -/
def engineI2 : Engine :=
  ⟨ix 128 0x00000000fffffffe6001ffc1a2c232a2, ix 128 0x00000000000000009fffffff595f0d16,
   ix 32 0x1fffffff, ix 32 0xc2c0f2c7, true, .warmed⟩

/-! ## WellFormed: one ill-formed term for each check -/

theorem test_wf_key_127 :
    (AsmLine.init (.bits (List.replicate 127 false)) (.bits (List.replicate 96 false))).wf = false := by
  decide +kernel
theorem test_wf_iv_100 :
    (AsmLine.init (.bits (List.replicate 128 false)) (.hex (List.replicate 25 0))).wf = false := by
  decide +kernel
theorem test_wf_right_lengths :
    (AsmLine.init (.hex (List.replicate 32 0)) (.hex (List.replicate 24 0))).wf = true := by decide
theorem test_wf_word_8 : wordWf 8 = false ∧ wordWf 7 = true := by decide

/-! ## Decode: words written out bit by bit from R63 -/

theorem test_decode_idle : decode ⟨0b000#3, 5#128, 7#96⟩ = .idle ∧ decode ⟨0b001#3, 5#128, 7#96⟩ = .idle := by
  decide
theorem test_decode_init :
    decode ⟨0b010#3, 5#128, 7#96⟩ = .init 5#128 7#96 ∧
    decode ⟨0b011#3, 5#128, 7#96⟩ = .init 5#128 7#96 := by decide
theorem test_decode_next :
    decode ⟨0b100#3, 5#128, 7#96⟩ = .next false ∧ decode ⟨0b101#3, 5#128, 7#96⟩ = .next true := by
  decide
theorem test_decode_rsvd :
    decode ⟨0b110#3, 5#128, 7#96⟩ = .rsvd false ∧ decode ⟨0b111#3, 5#128, 7#96⟩ = .rsvd true := by
  decide
theorem test_decode_table_words :
    decodeTableWord 8 0b000 = some .idle ∧ decodeTableWord 3 0b010 = some (.init 0 0) ∧
    decodeTableWord 8 0b101 = some (.next true) ∧ decodeTableWord 3 0b110 = some (.rsvd false) ∧
    decodeTableWord 8 0b1000 = none := by decide
/-- No two rows of the opcode map overlap, and every word lies in one. -/
theorem test_rows_disjoint_and_total :
    opcodeRows.Pairwise (fun a b => a.pattern &&& b.mask ≠ b.pattern) ∧
    (List.range 8).all (fun w => (rowOf (BitVec.ofNat 3 w)).isSome) = true := by decide
/-- R69: `NEXT -` is encoded 100 and `x:1f` is the bit string 00011111 (R13). -/
theorem test_assemble :
    (match assemble .nextDash with | .ok c => some c.cw | .error _ => none) = some 0b100#3 ∧
    (BitText.hex [0x1#4, 0xf#4]).toBits = [false, false, false, true, true, true, true, true] := by
  decide

/-- R70 with R43: the byte 0x41 as `KEYSTREAM.B` from reset is eight `NEXT`, the first of which
faults. -/
theorem test_keystream_bytes :
    pseudoKeystreamBytes .msbFirst [0x41#8] = [false, true, false, false, false, false, false, true].map
      (fun m => issue (.next m)) ∧
    faultOf (runEvents (pseudoKeystreamBytes .lsbFirst [0x41#8]) State.reset) =
      some (.uninitUse .next) := by decide

/-- R69's line for `INIT`. -/
theorem test_asm_text : (AsmLine.init (.hex [0x8#4, 0xf#4]) (.bits [false, true])).text =
    "INIT key=x:8f, iv=01" := by decide +kernel

/-! ## The core clock step: section 2 of the vectors -/

/-- One row: `L`, `N` as sets, then `f`, `g`, `h`, `y`. -/
def row (l n : List Nat) (f g h y : Bool) : Bool :=
  lfsrFeedback ⟨ones l, ones n⟩ == f && nfsrFeedback ⟨ones l, ones n⟩ == g &&
    outputFilter ⟨ones l, ones n⟩ == h && outputBit ⟨ones l, ones n⟩ == y

theorem test_vectors_f :
    [row [0] [] true true false false, row [7] [] true false false false,
     row [38] [] true false false false, row [70] [] true false false false,
     row [81] [] true false false false, row [96] [] true false false false,
     row [0, 7] [0] false false false false, row [127] [127] false false false false].all id = true := by
  decide
theorem test_vectors_g :
    [row [] [0] false true false false, row [] [26] false true false false,
     row [] [56] false true false false, row [] [91] false true false false,
     row [] [96] false true false false, row [] [3, 67] false true false false,
     row [] [3] false false false false, row [] [11, 13] false true false false,
     row [] [17, 18] false true false false, row [] [27, 59] false true false false].all id = true ∧
    [row [] [40, 48] false true false false, row [] [61, 65] false true false false,
     row [] [68, 84] false true false false, row [] [88, 92, 93, 95] false true false false,
     row [] [88, 92, 93] false false false false, row [] [22, 24, 25] false true false false,
     row [] [22, 24] false false false false, row [] [70, 78, 82] false true false false,
     row [] [70, 78] false false false false].all id = true := by decide
theorem test_vectors_y :
    [row [93] [] false false false true, row [] [2] false false false true,
     row [] [15] false false false true, row [] [36] false false false true,
     row [] [45] false false false true, row [] [64] false false false true,
     row [] [73] false false false true, row [] [89] false false false true].all id = true := by
  decide
theorem test_vectors_h :
    [row [8] [12] false false true true, row [8] [] false false false false,
     row [] [12] false false false false, row [13, 20] [] false false true true,
     row [42] [95] false false true true, row [] [95] false false false false,
     row [60, 79] [] false false true true, row [94] [12, 95] false false true true,
     row [94] [12] false false false false, row [8, 94] [12, 95] false false false false,
     row [8, 42, 94] [12, 95] false false true true,
     row [8, 13] [12, 95] false false true true].all id = true := by decide

/-- The first of the four steps from the dense state of section 2. -/
theorem test_clock_dense :
    clockRegs ⟨ix 128 0x842108421084210842108421fffffffe, ix 128 0x92492492492492492492492492492492⟩ =
      ⟨ix 128 0x084210842108421084210843fffffffc, ix 128 0x24924924924924924924924924924924⟩ := by
  decide +kernel

/-! ## The instructions, one step each -/

/-- Vector X2: `IDLE` in `UNINIT`. -/
theorem test_idle : nextOf (step (State.reset.withInputs [.command ⟨0b001#3, 3, 4⟩])) = some State.reset := by
  decide

/-- Vector I4: `INIT` without authentication is a pure load, through the whole of a step. -/
theorem test_init_plain :
    nextOf (step (State.reset.withInputs
      [.command ⟨0b010#3, BitVec.allOnes 128, ix 96 0x7fffffffffffffffffffffff⟩])) =
    some (machineOf ⟨ix 128 0x7ffffffffffffffffffffffffffffffe, BitVec.allOnes 128, 0, 0, false,
      .warmed⟩) := by decide +kernel

/-- Vector I3: `INIT` with authentication, 64 seeding steps. -/
theorem test_init_auth :
    nextOf (exec (.init (ix 128 0x92492492492492492492492492492492) (ix 96 0x842108421084210842108421))
      State.reset) =
    some (machineOf ⟨ix 128 0x42108421fffffffe6b8ab013243e9fa4,
      ix 128 0x24924924924924920d0992515dc387ee, ix 32 0xadbad337, ix 32 0x9902aa6e, true,
      .warmed⟩) := by decide +kernel

/-- Program P1's fourth `NEXT` (section 4.2, K1a step 3): the first 1 appears. -/
theorem test_next_plain :
    (nextOf (exec (.next true) (machineOf ⟨ix 128 0x000000000000000000000007fffffff7, 0, 0, 0, false,
      .streaming⟩))).map (fun s => (s.engine, s.port.z)) =
    some (⟨ix 128 0x00000000000000000000000fffffffee, ix 128 1, 0, 0, false, .streaming⟩, true) := by
  decide +kernel

/-- Program P2b's first `NEXT 1` after I2 (also program P4's): `z = 1`, `A = x:dd3f0d38`,
`R = x:8581e58f`. -/
theorem test_next_auth :
    (nextOf (exec (.next true) (machineOf engineI2))).map (fun s => (s.engine.A, s.engine.R, s.port.z)) =
    some (ix 32 0xdd3f0d38, ix 32 0x8581e58f, true) := by decide +kernel

/-- Vector M3: lanes meet index to index, and the bit enters at index 31. -/
theorem test_mac_update :
    (let e := Engine.macUpdate true true ⟨0, 0, ix 32 0x12345678, ix 32 0x80000001, true, .warmed⟩
     (e.A, e.R)) = (ix 32 0x92345679, ix 32 0x00000003) := by decide +kernel

/-- Vectors X1, X3, X5: the faults from reset. -/
theorem test_faults :
    faultOf (step (State.reset.withFetchWord 8 0b100)) = some (.uninitUse .next) ∧
    faultOf (step (State.reset.withInputs [.readTag])) = some (.uninitUse .tag) ∧
    faultOf (step (State.reset.withFetchWord 8 0b111)) = some (.reservedOp 0b111#3) := by decide

/-- Vector T2: the tag after I2. -/
theorem test_tag : nextOf engineI2.tag = some (ix 32 0x1fffffff) := by decide +kernel

/-! ## Witnesses: states and operands that meet the hypotheses of each statement -/

/-- A machine ready without authentication, and one with it. -/
def plain : State := machineOf engineI1
def withAuth : State := machineOf engineI2

def idlePorts : PortIn := ⟨false, 0b00#2, false, 0, 0⟩
def nextPorts : PortIn := ⟨false, 0b10#2, true, 0, 0⟩
def initPorts : PortIn := ⟨false, 0b01#2, false, 0, 1#96⟩
def resetPorts : PortIn := ⟨true, 0b11#2, false, 0, 0⟩

/-- Every transaction takes two cycles, or one. -/
def twoCycles : Config.Timing := ⟨fun _ => 2, fun _ => 2⟩
def oneCycle : Config.Timing := ⟨fun _ => 1, fun _ => 1⟩

theorem witness_DecodeAndEncodeAgree :
    (⟨0b011#3, 1, 2⟩ : Command).cw.extractLsb' 1 2 = 0b01#2 ∧ (⟨0b101#3, 1, 2⟩ : Command).cw.getLsbD 2 = true := by
  decide
theorem witness_OpcodeMapAndIgnoredInputs :
    (0b001#3 &&& 0b110#3 = 0b000#3) ∧ (0b011#3 &&& 0b110#3 = 0b010#3) ∧
    (0b101#3 &&& 0b110#3 = 0b100#3) ∧ (0b111#3 &&& 0b110#3 = 0b110#3) ∧
    (0b101#3 &&& 0b110#3 ≠ 0b010#3) ∧ plain.engine.AUTH = false := by decide
theorem witness_StepPerformsTheIssuedCommand :
    (plain.withInputs [.command ⟨0b101#3, 1, 2⟩]).inputs = [.command ⟨0b101#3, 1, 2⟩] ∧
    (plain.withInputs [.readTag]).inputs = [.readTag] ∧ plain.inputs = [] ∧
    decodeTableWord 8 0b101 = some (.next true) := by decide
theorem witness_AssemblerChecksLengthsAndKeepsBits :
    (BitText.hex (List.replicate 31 0)).length ≠ 128 ∧ (BitText.hex (List.replicate 32 0)).length = 128 ∧
    (BitText.hex (List.replicate 25 0)).length ≠ 96 ∧ (BitText.hex (List.replicate 24 0)).length = 96 ∧
    [0x1#4, 0xf#4][1]? = some 0xf#4 := by decide
theorem witness_CoreClockLosesNoState :
    clockTimes 1 ⟨ones [0], ones []⟩ = clockTimes 1 ⟨ones [0], ones []⟩ := rfl
theorem witness_InsertedBitIsReadLate :
    (∀ i ≤ 96, (ones [97]).getLsbD i = (ones []).getLsbD i) ∧
    (∀ i ≤ 94, (ones [95]).getLsbD i = (ones []).getLsbD i) ∧
    (∀ i ≤ 95, (ones [96]).getLsbD i = (ones []).getLsbD i) ∧
    (∀ i < 127, (ones [127]).getLsbD i = (ones []).getLsbD i) ∧
    onlyTopDiffers (ones [127]) (ones []) := by unfold onlyTopDiffers; decide
theorem witness_InitLoadsAndSeeds :
    (0#96).getLsbD 0 = false ∧ (1#96).getLsbD 0 = true := by decide
theorem witness_NextWithoutAuthentication :
    plain.engine.PHASE ≠ .uninit ∧ plain.engine.AUTH = false ∧ (0#96).getLsbD 0 = false := by decide
theorem witness_NextWithAuthentication :
    withAuth.engine.PHASE ≠ .uninit ∧ withAuth.engine.AUTH = true := by decide
theorem witness_NextFaultsExactlyBeforeInit :
    State.reset.engine.PHASE = .uninit ∧ withAuth.engine.PHASE ≠ .uninit := by decide
theorem witness_KeystreamIgnoresTheMessage : [true].length = [false].length := rfl
theorem witness_KeystreamLengthAndClockCount :
    (1#96).getLsbD 0 = true ∧ 0 < [true].length := by decide
theorem witness_TagClosedForm :
    engineI2.AUTH = true ∧ (1#96).getLsbD 0 = true ∧ 1 ≤ [true].length ∧ 31 < 32 := by decide
theorem witness_EmptyMessageChangesNothing : (1#96).getLsbD 0 = true ∧ 31 < 32 := by decide
theorem witness_KeystreamIsItsNexts :
    withAuth.engine.PHASE ≠ .uninit ∧ State.reset.engine.PHASE = .uninit ∧ [true] ≠ [] := by decide
theorem witness_KeystreamBytesIsItsNexts :
    [0x41#8, 0x01#8][1]? = some 0x01#8 ∧ 7 < 8 ∧ withAuth.engine.PHASE ≠ .uninit ∧
    State.reset.engine.PHASE = .uninit ∧ [0x41#8] ≠ [] := by decide
theorem witness_QuietEventsAreInvisible :
    plain.engine.PHASE ≠ .uninit ∧ isQuiet .readTag = true ∧ isQuiet (issue (.next true)) = false := by
  decide
theorem witness_TagReadReturnsTheAccumulator :
    (State.reset.withInputs [.readTag]).inputs = [.readTag] ∧
    (State.reset.withInputs [.readTag]).engine.PHASE = .uninit ∧
    (withAuth.withInputs [.readTag]).inputs = [.readTag] ∧
    (withAuth.withInputs [.readTag]).engine.PHASE ≠ .uninit := by decide
theorem witness_TagIsZeroWithoutAuthentication :
    (0#96).getLsbD 0 = false ∧
    (∀ ev ∈ [issue (.next true), issue .idle, .readTag], isInit ev = false) ∧
    (nextOf (runEvents (pseudoConstruct 0 0#96 ++ [issue (.next true), issue .idle, .readTag])
      State.reset)).isSome = true := by decide +kernel
theorem witness_OnlyTheTwoFaults :
    faultOf (step (State.reset.withInputs [.readTag])) = some (.uninitUse .tag) ∧
    faultOf (step (State.reset.withInputs [.command ⟨0b101#3, 0, 0⟩])) = some (.uninitUse .next) ∧
    faultOf (step (plain.withInputs [.command ⟨0b111#3, 0, 0⟩])) = some (.reservedOp 0b111#3) := by
  decide
theorem witness_FaultsAreFinal :
    (nextOf (run 1 (State.reset.withInputs [issue .idle, issue (.next true)]))).map
      (fun t => faultOf (step t)) = some (some (.uninitUse .next)) := by decide
theorem witness_AuthAndPhaseTransitions :
    (nextOf (step (State.reset.withInputs [issue (.init 0 0#96)]))).isSome = true ∧
    decode (encode (.init 0 0#96)) = .init 0 0#96 ∧
    (nextOf (step (plain.withInputs [issue (.next true)]))).isSome = true ∧
    decode (encode (.next true)) = .next true := by decide +kernel
theorem witness_StepKeepsTheInvariant :
    (plain.engine.MacGated ∧ plain.engine.NotStuck) ∧
    (nextOf (step (plain.withInputs [issue (.next true)]))).isSome = true := by
  unfold Engine.MacGated Engine.NotStuck; decide +kernel
theorem witness_UnloadedRegistersNeverShow :
    SameButUnloaded State.reset (machineOf ⟨ones [3], ones [5], 7, 9, true, .uninit⟩) := by
  unfold SameButUnloaded; decide
theorem witness_RoundTripAndTagConsistency : (1#96).getLsbD 0 = true := by decide
theorem witness_TagSensitivityIsTheShiftRegister :
    (1#96).getLsbD 0 = true ∧ 0 < [true, false].length ∧ 1 < [true, false].length := by decide
theorem witness_ByteOrderOfTheHost : [0x41#8, 0x01#8][1]? = some 0x01#8 ∧ 7 < 8 := by decide
theorem witness_BusyEdgesIgnoreThePorts :
    idlePorts.rst = false ∧ nextPorts.rst = false ∧ resetPorts.rst = true ∧
    ({ plain with port := { plain.port with busyLeft := 1 } } : State).port.busyLeft ≠ 0 := by decide
theorem witness_PortResetAbandonsTheTransaction : resetPorts.rst = true := rfl
/-- A `NEXT` of two cycles, in progress and complete, and one of a single cycle. -/
theorem witness_PortDeliversNextInTime :
    twoCycles.Positive ∧ oneCycle.Positive ∧ plain.engine.PHASE ≠ .uninit ∧ plain.port.busyLeft = 0 ∧
    nextPorts.rst = false ∧ nextPorts.op = 0b10#2 ∧ noReset [idlePorts] ∧ noReset [] ∧
    [].length (α := PortIn) + 1 < twoCycles.tNext plain.engine.AUTH ∧
    [idlePorts].length + 1 = twoCycles.tNext plain.engine.AUTH ∧
    [].length (α := PortIn) + 1 = oneCycle.tNext plain.engine.AUTH ∧
    idlePorts.rst = false ∧ idlePorts.op = 0b00#2 := by
  unfold Config.Timing.Positive noReset; decide
theorem witness_PortCompletesInitInTime :
    twoCycles.Positive ∧ oneCycle.Positive ∧ State.reset.port.busyLeft = 0 ∧ initPorts.rst = false ∧
    initPorts.op = 0b01#2 ∧ noReset [idlePorts] ∧ noReset [] ∧
    [].length (α := PortIn) + 1 < twoCycles.tInit ((1#96).getLsbD 0) ∧
    [idlePorts].length + 1 = twoCycles.tInit ((1#96).getLsbD 0) ∧
    [].length (α := PortIn) + 1 = oneCycle.tInit ((1#96).getLsbD 0) := by
  unfold Config.Timing.Positive noReset; decide
/-- Not busy and ready; an edge that completes an `INIT` and one that accepts a `NEXT`. -/
theorem witness_OutputPinsFollowTheRegisters :
    plain.port.busyLeft = 0 ∧ plain.engine.PHASE ≠ .uninit ∧ nextPorts.rst = false ∧
    initPorts.rst = false ∧
    (nextOf (clockEdge oneCycle initPorts plain)).map (fun t => t.port.zValid) = some false ∧
    (nextOf (clockEdge twoCycles nextPorts plain)).map (fun t => t.port.zValid) = some false := by
  decide +kernel
theorem witness_LoadsAreTheIvItsPaddingAndTheKey : 95 < 96 ∧ 96 ≤ 126 ∧ 127 < 128 := by decide
theorem witness_PortRegistersStayConsistent :
    plain.PortInv ∧ (nextOf (clockEdge twoCycles nextPorts plain)).isSome = true ∧
    (nextOf (step (plain.withInputs [issue .idle]))).isSome = true := by
  unfold State.PortInv; decide +kernel
theorem witness_PortBindingRefinesTheTransactions :
    noReset [nextPorts, idlePorts, idlePorts] ∧ plain.port.busyLeft = 0 ∧
    (nextOf (runEdges twoCycles [nextPorts, idlePorts, idlePorts] plain)).isSome = true := by
  unfold noReset; decide +kernel

end Sys2Proof.Tests
end

section
/-! Proofs of the scope's statements (spec 00_scope.md). -/

namespace Sys2Proof.Proofs
open Sys2Proof.Machine

/-- Settles O50: `getLsbD_shr` gives every bit of the shifted register; below the top it reads the
next higher bit, at the top the inserted one. -/
theorem shiftDiscardsBitZero : Obligations.ShiftDiscardsBitZero := by
  intro n x v
  constructor
  · intro i hi
    rw [getLsbD_shr, if_neg hi.ne]
  · rw [getLsbD_shr, if_pos rfl]

end Sys2Proof.Proofs
end

section
/-! Facts about the engine and the step that the statements on the state share: what `INIT` leaves
and forgets, what a transaction makes of the engine, the fixed points of the core clock step
(spec 40_core_clock.md R93), and corresponding outcomes. -/

namespace Sys2Proof.Machine

/-! What `INIT` leaves (41_init.md R101 to R107). -/

section
variable (e : Engine) (key : Key) (iv : IV)

/-- The seeding step does not touch the mode flag (R106). -/
@[simp] theorem Engine.seed_AUTH : e.seed.AUTH = e.AUTH := by
  cases h : e.AUTH with
  | false => rw [e.seed_off h, h]
  | true =>
    obtain ⟨-, -, hacc, -⟩ := e.seedAcc_frame 32 0
    obtain ⟨-, -, hsr, -⟩ := (e.seedAcc 32 0).seedSr_frame 32 0
    rw [e.seed_on h, hsr, hacc, h]

/-- The seeding step moves the state arrays by its 64 core clock steps, or by none (R106). -/
theorem Engine.seed_regs : e.seed.regs = clockTimes (if e.AUTH then 64 else 0) e.regs := by
  cases h : e.AUTH with
  | false => rw [e.seed_off h]; rfl
  | true =>
    obtain ⟨hacc, -, -, -⟩ := e.seedAcc_frame 32 0
    obtain ⟨hsr, -, -, -⟩ := (e.seedAcc 32 0).seedSr_frame 32 0
    rw [e.seed_on h, hsr, hacc, ← clockTimes_add]; rfl

@[simp] theorem Engine.init_AUTH : (e.init key iv).AUTH = iv.getLsbD 0 := by
  rw [e.init_eq, Engine.warm_AUTH, Engine.seed_AUTH, Engine.load_eq]

theorem Engine.init_regs : (e.init key iv).regs =
    clockTimes (if iv.getLsbD 0 then 64 else 0) ⟨lfsrOf iv, key⟩ := by
  rw [e.init_eq, Engine.warm_regs, Engine.seed_regs, Engine.load_eq]; rfl

/-- Without authentication `INIT` leaves both MAC registers cleared (R104). -/
theorem Engine.init_mac_plain (h : iv.getLsbD 0 = false) :
    (e.init key iv).A = 0 ∧ (e.init key iv).R = 0 := by
  have hoff : (e.load key iv).AUTH = false := by rw [e.load_eq]; exact h
  rw [e.init_eq, Engine.seed_off _ hoff, e.load_eq]
  exact ⟨rfl, rfl⟩

theorem Engine.seedAcc_warm (k i : Nat) : e.warm.seedAcc k i = (e.seedAcc k i).warm := by
  induction k generalizing e i with
  | zero => rfl
  | succ k ih => exact ih { e.clock.1 with A := writeBit e.A i e.clock.2 } (i + 1)

theorem Engine.seedSr_warm (k i : Nat) : e.warm.seedSr k i = (e.seedSr k i).warm := by
  induction k generalizing e i with
  | zero => rfl
  | succ k ih => exact ih { e.clock.1 with R := writeBit e.R i e.clock.2 } (i + 1)

/-- The seeding step neither reads nor writes `PHASE`. -/
theorem Engine.seed_warm : e.warm.seed = e.seed.warm := by
  cases h : e.AUTH with
  | false => rw [e.seed_off h, Engine.seed_off e.warm h]
  | true =>
    rw [e.seed_on h, Engine.seed_on e.warm h, Engine.seedAcc_warm, Engine.seedSr_warm]

/-- `INIT` forgets the whole engine it meets (R108). -/
theorem Engine.init_forgets (e' : Engine) : e.init key iv = e'.init key iv := by
  have hload : (e.load key iv).warm = (e'.load key iv).warm := by
    rw [e.load_eq, e'.load_eq]; rfl
  rw [e.init_eq, e'.init_eq, ← Engine.seed_warm, ← Engine.seed_warm, hload]

end

/-! What a step does, by what the host has issued. -/

section
variable {s t : State} {c : Command} {rest : List HostEvent}

theorem step_nil (h : s.inputs = []) : step s = .next s := by
  simp only [step, h]

theorem step_command (h : s.inputs = .command c :: rest) :
    step s = exec (decode c) (s.withInputs rest) := by
  simp only [step, h]

theorem step_readTag (h : s.inputs = .readTag :: rest) :
    step s = readTag (s.withInputs rest) := by
  simp only [step, h]

/-- A tag read before any `INIT` (43_tag_idle.md R133). -/
theorem readTag_uninit (s : State) (h : s.engine.PHASE = .uninit) :
    readTag s = .fault (.uninitUse .tag) := by
  unfold readTag Engine.tag; rw [if_pos h]; rfl

/-- What a step that answers a next state makes of the engine: nothing, a fresh engine by an
`INIT`, or one keystream position by a `NEXT` after an `INIT`. -/
theorem step_engine_cases (h : step s = .next t) :
    t.engine = s.engine ∨
    (∃ c rest key iv, s.inputs = .command c :: rest ∧ decode c = .init key iv ∧
      t.engine = s.engine.init key iv) ∨
    (∃ m, s.engine.PHASE ≠ .uninit ∧ t.engine = (s.engine.next m).1) := by
  obtain ⟨-, rfl⟩ | ⟨rest, -, -, rfl⟩ | ⟨c, rest, hin, hexec⟩ := step_next_cases h
  · exact .inl rfl
  · exact .inl rfl
  · obtain ⟨-, rfl⟩ | ⟨key, iv, hdec, rfl⟩ | ⟨m, -, hphase, rfl⟩ := exec_next_cases hexec
    · exact .inl rfl
    · exact .inr (.inl ⟨c, rest, key, iv, hin, hdec, rfl⟩)
    · exact .inr (.inr ⟨m, hphase, rfl⟩)

theorem observe_nil (h : s.inputs = []) : observe s t = [] := by
  simp only [observe, h]

theorem observe_command (h : s.inputs = .command c :: rest) :
    observe s t = if returnsBit (decode c) then [.bit t.port.z] else [] := by
  simp only [observe, h]

end

/-! The two fixed points of the core clock step (R93). -/

/-- Every bit of both state arrays is `v`: for each `v` a fixed point of the core clock step. -/
def Regs.AllAre (v : Bit) (x : Regs) : Prop :=
  ∀ i, i < 128 → x.L.getLsbD i = v ∧ x.N.getLsbD i = v

/-- A core clock step leads into a fixed point from that fixed point only: the bits above index 0
are those of the arrays after the step, and the feedbacks then determine the two bits at index
0. -/
theorem allAre_of_clockRegs {v : Bit} {x : Regs} (h : (clockRegs x).AllAre v) : x.AllAre v := by
  have hup : ∀ i, 0 < i → i < 128 → x.L.getLsbD i = v ∧ x.N.getLsbD i = v := by
    intro i hpos hi
    obtain ⟨hL, hN⟩ := h (i - 1) (by omega)
    rw [getLsbD_clockRegs_L, if_neg (by omega), Nat.sub_add_cancel hpos] at hL
    rw [getLsbD_clockRegs_N, if_neg (by omega), Nat.sub_add_cancel hpos] at hN
    exact ⟨hL, hN⟩
  have hL : ∀ i (hi : i < 128), 0 < i → x.L[i] = v := fun i hi hpos => (hup i hpos hi).1
  have hN : ∀ i (hi : i < 128), 0 < i → x.N[i] = v := fun i hi hpos => (hup i hpos hi).2
  obtain ⟨hf, hg⟩ := h 127 (by omega)
  rw [getLsbD_clockRegs_L, if_pos rfl] at hf
  rw [getLsbD_clockRegs_N, if_pos rfl] at hg
  have hy : outputBit x = v := by
    simp only [outputBit, outputFilter, filterFormula, hL, hN, Nat.zero_lt_succ]
    cases v <;> rfl
  have hL0 : x.L[0] = v := by
    simp only [lfsrFeedback, hy, hL, Nat.zero_lt_succ] at hf
    revert hf; cases v <;> cases x.L[0] <;> decide
  have hN0 : x.N[0] = v := by
    simp only [nfsrFeedback, hy, hL0, hN, Nat.zero_lt_succ] at hg
    revert hg; cases v <;> cases x.N[0] <;> decide
  intro i hi
  rcases Nat.eq_zero_or_pos i with rfl | hpos
  · exact ⟨hL0, hN0⟩
  · exact hup i hpos hi

/-- So it is for any number of core clock steps. -/
theorem allAre_of_clockTimes {v : Bit} {k : Nat} {x : Regs} (h : (clockTimes k x).AllAre v) :
    x.AllAre v := by
  induction k generalizing x with
  | zero => exact h
  | succ k ih => exact allAre_of_clockRegs (ih h)

/-- The loads of `INIT` put a 1 at index 126 and a 0 at index 127 of the LFSR (R101). -/
theorem not_allAre_loaded (v : Bit) (key : Key) (iv : IV) :
    ¬ Regs.AllAre v ⟨lfsrOf iv, key⟩ := by
  intro h
  obtain ⟨h126, -⟩ := h 126 (by decide)
  obtain ⟨h127, -⟩ := h 127 (by decide)
  rw [getLsbD_lfsrOf, if_neg (by decide)] at h126 h127
  exact absurd (h126.trans h127.symm) (by decide)

/-- `NotStuck` in terms of the bits of the state arrays. -/
theorem Engine.notStuck_iff (e : Engine) : e.NotStuck ↔ ∀ v, ¬ e.regs.AllAre v := by
  have hzero : e.regs.AllAre false ↔ e.L = 0 ∧ e.N = 0 := by
    constructor
    · intro h
      exact ⟨BitVec.eq_of_getLsbD_eq fun i hi => by simpa using (h i hi).1,
        BitVec.eq_of_getLsbD_eq fun i hi => by simpa using (h i hi).2⟩
    · rintro ⟨hL, hN⟩ i -
      simp [hL, hN]
  have hbit : ∀ i, i < 128 → (BitVec.allOnes 128).getLsbD i = true := fun i hi => by
    rw [BitVec.getLsbD_allOnes, decide_eq_true hi]
  have hones : e.regs.AllAre true ↔ e.L = BitVec.allOnes 128 ∧ e.N = BitVec.allOnes 128 := by
    constructor
    · intro h
      exact ⟨BitVec.eq_of_getLsbD_eq fun i hi => (h i hi).1.trans (hbit i hi).symm,
        BitVec.eq_of_getLsbD_eq fun i hi => (h i hi).2.trans (hbit i hi).symm⟩
    · rintro ⟨hL, hN⟩ i hi
      rw [Engine.regs_L, Engine.regs_N, hL, hN]
      exact ⟨hbit i hi, hbit i hi⟩
  rw [Bool.forall_bool, hzero, hones]
  rfl

/-! The invariant of the engine is established by `INIT` and kept by `NEXT`. -/

section
variable (e : Engine) (m : Bit) (key : Key) (iv : IV)

theorem Engine.init_notStuck : (e.init key iv).NotStuck := by
  rw [Engine.notStuck_iff, Engine.init_regs]
  exact fun v h => not_allAre_loaded v key iv (allAre_of_clockTimes h)

theorem Engine.next_notStuck (h : e.NotStuck) : (e.next m).1.NotStuck := by
  rw [Engine.notStuck_iff] at h ⊢
  rw [Engine.next_regs]
  exact fun v hv => h v (allAre_of_clockTimes hv)

theorem Engine.init_macGated : (e.init key iv).MacGated := by
  intro hauth
  rw [Engine.init_AUTH] at hauth
  exact e.init_mac_plain key iv hauth

theorem Engine.next_macGated (h : e.MacGated) : (e.next m).1.MacGated := by
  intro hauth
  rw [Engine.next_AUTH] at hauth
  rw [Engine.next_A_plain m e hauth, Engine.next_R_plain m e hauth]
  exact h hauth

end

/-! Corresponding outcomes. -/

section
variable {rel rel' : State → State → Prop} {o o' : Host.Outcome State Fault Refusal}

theorem Corresponds.refl (hrel : ∀ s, rel s s) (o : Host.Outcome State Fault Refusal) :
    Corresponds rel o o := by
  cases o with
  | next s => exact hrel s
  | fault f => rfl
  | refused r => rfl

/-- Corresponding outcomes are next states in the relation, one fault, or one refusal. -/
theorem Corresponds.inv (h : Corresponds rel o o') :
    (∃ s t, o = .next s ∧ o' = .next t ∧ rel s t) ∨
    (∃ f, o = .fault f ∧ o' = .fault f) ∨ (∃ r, o = .refused r ∧ o' = .refused r) := by
  cases o <;> cases o'
  case next.next s t => exact .inl ⟨s, t, rfl, rfl, h⟩
  case fault.fault f f' => exact .inr (.inl ⟨f, rfl, congrArg _ h.symm⟩)
  case refused.refused r r' => exact .inr (.inr ⟨r, rfl, congrArg _ h.symm⟩)
  all_goals exact h.elim

theorem Corresponds.mono (h : Corresponds rel o o') (hrel : ∀ s t, rel s t → rel' s t) :
    Corresponds rel' o o' := by
  obtain ⟨s, t, rfl, rfl, hst⟩ | ⟨f, rfl, rfl⟩ | ⟨r, rfl, rfl⟩ := h.inv
  · exact hrel s t hst
  · rfl
  · rfl

/-- Corresponding outcomes stay so when what follows them keeps the correspondence. -/
theorem Corresponds.andThen {k k' : State → Host.Outcome State Fault Refusal}
    (h : Corresponds rel o o') (hk : ∀ s t, rel s t → Corresponds rel' (k s) (k' t)) :
    Corresponds rel' (Machine.andThen o k) (Machine.andThen o' k') := by
  obtain ⟨s, t, rfl, rfl, hst⟩ | ⟨f, rfl, rfl⟩ | ⟨r, rfl, rfl⟩ := h.inv
  · exact hk s t hst
  · rfl
  · rfl

/-- Two runs show the same when their first steps correspond, show the same, and are followed by
the same observations. -/
theorem outcome_succ_congr {s t : State} {k : Nat}
    (h : Corresponds (fun s' t' => observe s s' = observe t t' ∧ outcome k s' = outcome k t')
      (step s) (step t)) : outcome (k + 1) s = outcome (k + 1) t := by
  obtain ⟨s', t', hs, ht, hobs, hrest⟩ | ⟨f, hs, ht⟩ | ⟨r, hs, ht⟩ := h.inv
  · simp only [outcome, hs, ht, hobs, hrest]
  · simp only [outcome, hs, ht]
  · simp only [outcome, hs, ht]

end

end Sys2Proof.Machine
end

section
/-! Proofs of the statements on the state (spec 10_state.md). -/

namespace Sys2Proof.Proofs
open Sys2Proof.Machine

/-- Settles O31: a step leaves the engine alone, makes a fresh one by `INIT`, or moves it by one
`NEXT`, and the engine's lemmas give both halves of the invariant in each case. -/
theorem stepKeepsTheInvariant : Obligations.StepKeepsTheInvariant := by
  intro s t hinv hstep
  obtain heq | ⟨-, -, key, iv, -, -, heq⟩ | ⟨m, hphase, heq⟩ := step_engine_cases hstep
  · unfold State.Inv at hinv ⊢
    rwa [heq]
  · right
    rw [heq]
    exact ⟨s.engine.init_macGated key iv, s.engine.init_notStuck key iv⟩
  · obtain ⟨hmac, hstuck⟩ := hinv.resolve_left hphase
    right
    rw [heq]
    exact ⟨s.engine.next_macGated m hmac, s.engine.next_notStuck m hstuck⟩

/-- Once a key and IV are loaded, related machines are the same machine. -/
theorem eq_of_sameButUnloaded {s t : State} (h : SameButUnloaded s t)
    (hphase : s.engine.PHASE ≠ .uninit) : s = t := by
  obtain ⟨hin, hport, -, heng⟩ := h
  cases s; cases t
  cases hin; cases hport; cases heng hphase
  rfl

theorem sameButUnloaded_refl (s : State) : SameButUnloaded s s := ⟨rfl, rfl, rfl, fun _ => rfl⟩

/-- Related machines stay related when the host's queue is replaced in both. -/
theorem sameButUnloaded_withInputs {s t : State} (h : SameButUnloaded s t)
    (evs : List HostEvent) : SameButUnloaded (s.withInputs evs) (t.withInputs evs) := by
  obtain ⟨-, hport, hphase, heng⟩ := h
  exact ⟨rfl, hport, hphase, heng⟩

/-- An instruction performed before the first `INIT` by two related machines: `IDLE` keeps both,
`INIT` makes them the same machine, `NEXT` and `RSVD` stop both. -/
theorem exec_sameButUnloaded_of_uninit (i : Instr) {s t : State} (h : SameButUnloaded s t)
    (hphase : s.engine.PHASE = .uninit) :
    Corresponds (fun s' t' => SameButUnloaded s' t' ∧ returnsBit i = false)
      (exec i s) (exec i t) := by
  obtain ⟨hin, hport, hphases, -⟩ := id h
  cases i with
  | idle => exact ⟨h, rfl⟩
  | init key iv => exact ⟨⟨hin, hport, rfl, fun _ => Engine.init_forgets _ key iv _⟩, rfl⟩
  | next m =>
    rw [exec_next_uninit m s hphase, exec_next_uninit m t (hphases ▸ hphase)]
    rfl
  | rsvd x => rfl

/-- One step of two related machines: the same fault, or related next states and the same
observation. Before the first `INIT` the only steps that go on are those that read no register. -/
theorem step_sameButUnloaded {s t : State} (h : SameButUnloaded s t) :
    Corresponds (fun s' t' => SameButUnloaded s' t' ∧ observe s s' = observe t t')
      (step s) (step t) := by
  by_cases hphase : s.engine.PHASE = .uninit
  case neg =>
    cases eq_of_sameButUnloaded h hphase
    exact Corresponds.refl (fun u => ⟨sameButUnloaded_refl u, rfl⟩) _
  obtain ⟨hin, -, hphases, -⟩ := id h
  cases hs : s.inputs with
  | nil =>
    have ht : t.inputs = [] := hin ▸ hs
    rw [step_nil hs, step_nil ht]
    exact ⟨h, (observe_nil hs).trans (observe_nil ht).symm⟩
  | cons ev rest =>
    have ht : t.inputs = ev :: rest := hin ▸ hs
    cases ev with
    | readTag =>
      have hphase' : t.engine.PHASE = .uninit := hphases ▸ hphase
      rw [step_readTag hs, step_readTag ht, readTag_uninit (s.withInputs rest) hphase,
        readTag_uninit (t.withInputs rest) hphase']
      rfl
    | command c =>
      rw [step_command hs, step_command ht]
      refine (exec_sameButUnloaded_of_uninit (decode c) (sameButUnloaded_withInputs h rest)
        hphase).mono ?_
      rintro s' t' ⟨hrel, hquiet⟩
      refine ⟨hrel, ?_⟩
      rw [observe_command hs, observe_command ht, hquiet]
      rfl

/-- Settles O33, by induction on the number of steps, each of which keeps the relation and shows
the same. -/
theorem unloadedRegistersNeverShow : Obligations.UnloadedRegistersNeverShow := by
  intro s t h k
  induction k generalizing s t with
  | zero => exact ⟨h, rfl⟩
  | succ k ih =>
    have hstep := step_sameButUnloaded h
    constructor
    · rw [run_succ, run_succ]
      exact hstep.andThen fun s' t' ⟨hrel, _⟩ => (ih s' t' hrel).1
    · exact outcome_succ_congr (hstep.mono fun s' t' ⟨hrel, hobs⟩ => ⟨hobs, (ih s' t' hrel).2⟩)

/-- Settles O30: an `INIT` leaves the engine `Engine.init` gives; any other step keeps the engine
or is a `NEXT`, which keeps `AUTH` and goes from a loaded phase to `STREAMING`. -/
theorem authAndPhaseTransitions : Obligations.AuthAndPhaseTransitions := by
  intro s t hstep
  constructor
  · intro c rest key iv hin hdec
    rw [step_command hin, hdec] at hstep
    cases hstep
    exact ⟨Engine.init_AUTH _ key iv, rfl⟩
  · intro hnoInit
    obtain heq | ⟨c, rest, key, iv, hin, hdec, -⟩ | ⟨m, hphase, heq⟩ := step_engine_cases hstep
    · rw [heq]
      exact ⟨rfl, Iff.rfl, id⟩
    · exact absurd hdec (hnoInit c rest key iv hin)
    · rw [heq, Engine.next_AUTH, Engine.next_PHASE]
      exact ⟨rfl, iff_of_false (by decide) hphase, fun h => absurd h (by decide)⟩

end Sys2Proof.Proofs
end

section
/-! The bits the host adapter presents and the word it makes of a tag (spec 20_memory.md R43,
R46). -/

namespace Sys2Proof.Adapter
open Sys2Proof.Config Sys2Proof.Machine

/-! The bits of a byte and of a byte sequence. -/

section
variable (o : ByteBitOrder) (b : Byte) (bs : List Byte)

@[simp] theorem length_bitsOfByte : (bitsOfByte o b).length = 8 := by
  cases o <;> rfl

theorem getElem?_bitsOfByte_msbFirst {j : Nat} (hj : j < 8) :
    (bitsOfByte .msbFirst b)[j]? = some (b.getLsbD (7 - j)) := by
  interval_cases j <;> rfl

theorem getElem?_bitsOfByte_lsbFirst {j : Nat} (hj : j < 8) :
    (bitsOfByte .lsbFirst b)[j]? = some (b.getLsbD j) := by
  interval_cases j <;> rfl

theorem bitsOfBytes_cons : bitsOfBytes o (b :: bs) = bitsOfByte o b ++ bitsOfBytes o bs :=
  List.flatMap_cons

@[simp] theorem length_bitsOfBytes : (bitsOfBytes o bs).length = 8 * bs.length := by
  induction bs with
  | nil => rfl
  | cons b bs ih =>
    rw [bitsOfBytes_cons, List.length_append, length_bitsOfByte, ih, List.length_cons]
    omega

variable {o b bs}

/-- Byte `k` supplies bits `8k` to `8k+7`, whatever the order within it. -/
theorem getElem?_bitsOfBytes {k j : Nat} (hk : bs[k]? = some b) (hj : j < 8) :
    (bitsOfBytes o bs)[8 * k + j]? = (bitsOfByte o b)[j]? := by
  induction bs generalizing k with
  | nil => cases hk
  | cons b' bs ih =>
    rw [bitsOfBytes_cons]
    cases k with
    | zero =>
      cases hk
      rw [Nat.mul_zero, Nat.zero_add, List.getElem?_append_left (by simpa using hj)]
    | succ k =>
      have hskip : 8 * (k + 1) + j - (bitsOfByte o b').length = 8 * k + j := by
        rw [length_bitsOfByte]; omega
      rw [List.getElem?_append_right (by rw [length_bitsOfByte]; omega), hskip]
      exact ih hk

end

/-! The rendering of a tag and the comparison of tags. -/

section
variable (o : TagWordOrder) (a b : Reg32)

/-- The writes for the indices in `js` put each of those tag bits at its place and leave the places
of the other indices alone, for no two indices share a place. -/
theorem getLsbD_foldl_writeBit (js : List (Fin 32)) (w : BitVec 32) (i : Fin 32) :
    (js.foldl (fun w j => writeBit w (o.position j).val (a.getLsbD j.val)) w).getLsbD
      (o.position i).val = if i ∈ js then a.getLsbD i.val else w.getLsbD (o.position i).val := by
  induction js generalizing w with
  | nil => rfl
  | cons j js ih =>
    have hplace : (o.position i).val = (o.position j).val ↔ i = j :=
      Fin.val_inj.trans o.injective.eq_iff
    rw [List.foldl_cons, ih, getLsbD_writeBit _ _ _ _ (o.position i).isLt]
    by_cases hij : i = j
    · subst hij; simp
    · simp [hplace, hij]

/-- The word of a tag holds each tag bit at the place of its index. -/
@[simp] theorem getLsbD_tagWord_position (i : Fin 32) :
    (tagWord o a).getLsbD (o.position i).val = a.getLsbD i.val := by
  rw [tagWord, getLsbD_foldl_writeBit, if_pos (List.mem_finRange i)]

/-- A rendering loses nothing: the bit of each index can be read back at its place. -/
theorem tagWord_injective : Function.Injective (tagWord o) := by
  intro a b h
  refine BitVec.eq_of_getLsbD_eq fun i hi => ?_
  have hread : ∀ c, (tagWord o c).getLsbD (o.position ⟨i, hi⟩).val = c.getLsbD i :=
    fun c => getLsbD_tagWord_position o c ⟨i, hi⟩
  rw [← hread a, h, hread b]

theorem tagsMatch_iff : tagsMatch a b = true ↔ ∀ j < 32, a.getLsbD j = b.getLsbD j := by
  simp only [tagsMatch, List.all_eq_true, List.mem_range, beq_iff_eq]

theorem tagsMatch_iff_eq : tagsMatch a b = true ↔ a = b := by
  rw [tagsMatch_iff]
  exact ⟨BitVec.eq_of_getLsbD_eq, fun h j _ => by rw [h]⟩

end

end Sys2Proof.Adapter
end

section
/-! Proofs of the statements on the data interface (spec 20_memory.md). -/

namespace Sys2Proof.Proofs
open Sys2Proof.Adapter

/-- Settles O39: the bits `8k` to `8k+7` are those of byte `k`, in the order of the byte. -/
theorem byteOrderOfTheHost : Obligations.ByteOrderOfTheHost := by
  intro bs k b hk j hj
  refine ⟨?_, ?_, fun o => length_bitsOfBytes o bs⟩
  · rw [getElem?_bitsOfBytes hk hj, getElem?_bitsOfByte_msbFirst b hj]
  · rw [getElem?_bitsOfBytes hk hj, getElem?_bitsOfByte_lsbFirst b hj]

/-- Settles O40: the places are distinct, so no write of the rendering undoes another, and every
tag bit can be read back from the word. -/
theorem tagRenderingLosesNothing : Obligations.TagRenderingLosesNothing := by
  intro o a b
  exact ⟨getLsbD_tagWord_position o a, (tagWord_injective o).eq_iff, tagsMatch_iff a b,
    tagsMatch_iff_eq a b⟩

end Sys2Proof.Proofs
end

section
/-! Facts about the decoder, the encoder and the assembler of the textual form (spec
30_encoding.md R62 to R69, 00_scope.md R13). -/

namespace Sys2Proof

/-! The decoder by opcode. -/

section
variable {c c' : Command}

theorem opcode_cases (op : BitVec 2) : op = 0b00#2 ∨ op = 0b01#2 ∨ op = 0b10#2 ∨ op = 0b11#2 := by
  revert op; decide

theorem decode_of_op_idle (h : c.cw.extractLsb' 1 2 = 0b00#2) : decode c = .idle := by
  rw [decode_by_fields, if_pos h]

theorem decode_of_op_init (h : c.cw.extractLsb' 1 2 = 0b01#2) :
    decode c = .init c.key c.iv := by
  rw [decode_by_fields, h]; rfl

theorem decode_of_op_next (h : c.cw.extractLsb' 1 2 = 0b10#2) :
    decode c = .next (c.cw.getLsbD 0) := by
  rw [decode_by_fields, h]; rfl

theorem decode_of_op_rsvd (h : c.cw.extractLsb' 1 2 = 0b11#2) :
    decode c = .rsvd (c.cw.getLsbD 0) := by
  rw [decode_by_fields, h]; rfl

/-- The opcode an instruction is coded by, the only thing `decode` looks at to choose the row
(R63). -/
def Instr.op : Instr → BitVec 2
  | .idle => 0b00#2
  | .init _ _ => 0b01#2
  | .next _ => 0b10#2
  | .rsvd _ => 0b11#2

/-- Decoding keeps the opcode. -/
@[simp] theorem op_decode (c : Command) : (decode c).op = c.cw.extractLsb' 1 2 := by
  obtain h | h | h | h := opcode_cases (c.cw.extractLsb' 1 2)
  · rw [decode_of_op_idle h, h]; rfl
  · rw [decode_of_op_init h, h]; rfl
  · rw [decode_of_op_next h, h]; rfl
  · rw [decode_of_op_rsvd h, h]; rfl

/-- The top bit of the command word is the top bit of the opcode (R62). -/
theorem getLsbD_two_eq (w : CommandWord) : w.getLsbD 2 = (w.extractLsb' 1 2).getLsbD 1 := by
  revert w; decide

/-- Two commands with one opcode decode to the same instruction when they agree on the inputs the
opcode reads (R66). -/
theorem decode_eq_iff_of_op_eq (h : c.cw.extractLsb' 1 2 = c'.cw.extractLsb' 1 2) :
    decode c = decode c' ↔
      (c.cw.extractLsb' 1 2 = 0b01#2 → c.key = c'.key ∧ c.iv = c'.iv) ∧
      (c.cw.getLsbD 2 = true → c.cw.getLsbD 0 = c'.cw.getLsbD 0) := by
  rw [getLsbD_two_eq]
  obtain hop | hop | hop | hop := opcode_cases (c.cw.extractLsb' 1 2)
  · rw [decode_of_op_idle hop, decode_of_op_idle (h ▸ hop), hop]; simp
  · rw [decode_of_op_init hop, decode_of_op_init (h ▸ hop), hop]; simp
  · rw [decode_of_op_next hop, decode_of_op_next (h ▸ hop), hop]; simp
  · rw [decode_of_op_rsvd hop, decode_of_op_rsvd (h ▸ hop), hop]; simp

/-- The mask of the opcode map selects the opcode (R63). -/
theorem masked_eq_iff (w : CommandWord) (op : BitVec 2) :
    w &&& 0b110#3 = commandWord op false ↔ w.extractLsb' 1 2 = op := by
  revert w op; decide

end

/-! Commands whose word is assembled from an opcode and a message bit (R62, R63). -/

section
variable (m : Bit) (key : Key) (iv : IV)

theorem decode_idleWord : decode ⟨commandWord 0b00#2 m, key, iv⟩ = .idle :=
  decode_of_op_idle (extract_commandWord _ m).1

theorem decode_initWord : decode ⟨commandWord 0b01#2 m, key, iv⟩ = .init key iv :=
  decode_of_op_init (extract_commandWord _ m).1

theorem decode_nextWord : decode ⟨commandWord 0b10#2 m, key, iv⟩ = .next m := by
  obtain ⟨hop, hm⟩ := extract_commandWord 0b10#2 m
  exact (decode_of_op_next hop).trans (congrArg Instr.next hm)

theorem decode_rsvdWord : decode ⟨commandWord 0b11#2 m, key, iv⟩ = .rsvd m := by
  obtain ⟨hop, hm⟩ := extract_commandWord 0b11#2 m
  exact (decode_of_op_rsvd hop).trans (congrArg Instr.rsvd hm)

end

/-- The encoder's words decode to the instruction they were made for. -/
@[simp] theorem decode_encode (i : Instr) : decode (encode i) = i := by
  cases i with
  | idle => exact decode_idleWord false 0 0
  | init key iv => exact decode_initWord false key iv
  | next m => exact decode_nextWord m 0 0
  | rsvd x => exact decode_rsvdWord x 0 0

/-- The word on the ports decodes by its `op` (R62). -/
theorem op_portCommand (p : Machine.PortIn) : p.command.cw.extractLsb' 1 2 = p.op :=
  (extract_commandWord p.op p.m).1

theorem m_portCommand (p : Machine.PortIn) : p.command.cw.getLsbD 0 = p.m :=
  (extract_commandWord p.op p.m).2

section
variable {p : Machine.PortIn}

theorem decode_portCommand_idle (h : p.op = 0b00#2) : decode p.command = .idle :=
  decode_of_op_idle ((op_portCommand p).trans h)

theorem decode_portCommand_init (h : p.op = 0b01#2) : decode p.command = .init p.key p.iv :=
  decode_of_op_init ((op_portCommand p).trans h)

theorem decode_portCommand_next (h : p.op = 0b10#2) : decode p.command = .next p.m :=
  (decode_of_op_next ((op_portCommand p).trans h)).trans (congrArg Instr.next (m_portCommand p))

end

/-! Written bit sequences (R13). -/

theorem getElem?_hexDigitBits (d : BitVec 4) {j : Nat} (hj : j < 4) :
    (hexDigitBits d)[j]? = some (d.getLsbD (3 - j)) := by
  interval_cases j <;> rfl

/-- In a concatenation of blocks of `n` elements, block `i` begins at index `n * i`. -/
theorem getElem?_flatMap_block {α β : Type} {f : α → List β} {n : Nat}
    (hf : ∀ a, (f a).length = n) {l : List α} {i : Nat} {a : α} (h : l[i]? = some a) {j : Nat}
    (hj : j < n) : (l.flatMap f)[n * i + j]? = (f a)[j]? := by
  induction l generalizing i with
  | nil => cases h
  | cons b l ih =>
    rw [List.flatMap_cons]
    cases i with
    | zero =>
      cases h
      rw [Nat.mul_zero, Nat.zero_add, List.getElem?_append_left ((hf a).symm ▸ hj)]
    | succ i =>
      have hskip : n * (i + 1) + j = (f b).length + (n * i + j) := by
        rw [hf, Nat.mul_succ]; omega
      rw [hskip, List.getElem?_append_right (Nat.le_add_right _ _), Nat.add_sub_cancel_left]
      exact ih h

/-- Digit `i` of an index-order hex sequence gives indices `4i` to `4i+3`, the lowest in its most
significant bit. -/
theorem getElem?_toBits_hex {ds : List (BitVec 4)} {i : Nat} {d : BitVec 4}
    (h : ds[i]? = some d) {j : Nat} (hj : j < 4) :
    (BitText.hex ds).toBits[4 * i + j]? = some (d.getLsbD (3 - j)) :=
  (getElem?_flatMap_block (f := hexDigitBits) (fun _ => rfl) h hj).trans
    (getElem?_hexDigitBits d hj)

/-- A written sequence stands for as many bits as its length says. -/
@[simp] theorem BitText.length_toBits (t : BitText) : t.toBits.length = t.length := by
  cases t with
  | bits b => rfl
  | hex ds => simp [BitText.toBits, BitText.length, hexDigitBits, List.length_flatMap, Nat.mul_comm]

/-- Bit `i` of the vector of a sequence is the sequence's element `i`. -/
theorem getElem?_eq_getLsbD_vecOfBits {n i : Nat} {bs : List Bit} (hlen : bs.length = n)
    (hi : i < n) : bs[i]? = some ((vecOfBits n bs).getLsbD i) := by
  have hib : i < bs.length := hlen ▸ hi
  rw [vecOfBits, BitVec.getLsbD_ofFnLE, dif_pos hi, List.getElem?_eq_getElem hib,
    List.getD_eq_getElem _ _ hib]

/-! The lines of the textual form (R69, R142). -/

section
variable {key iv : BitText}

theorem assemble_init_badKey (h : key.length ≠ 128) :
    assemble (.init key iv) = .error (.keyLength key.length) := by
  simp only [assemble, AsmLine.instr, if_pos h]

theorem assemble_init_badIv (hk : key.length = 128) (hv : iv.length ≠ 96) :
    assemble (.init key iv) = .error (.ivLength iv.length) := by
  simp only [assemble, AsmLine.instr, if_neg (not_not.mpr hk), if_pos hv]

theorem assemble_init_ok (hk : key.length = 128) (hv : iv.length = 96) :
    assemble (.init key iv) =
      .ok (encode (.init (vecOfBits 128 key.toBits) (vecOfBits 96 iv.toBits))) := by
  simp only [assemble, AsmLine.instr, if_neg (not_not.mpr hk), if_neg (not_not.mpr hv)]

end

theorem wf_init_iff (key iv : BitText) :
    (AsmLine.init key iv).wf = true ↔ key.length = 128 ∧ iv.length = 96 := by
  simp only [AsmLine.wf, Bool.and_eq_true, beq_iff_eq]

/-- A line assembles exactly when it is well formed. -/
theorem assemble_ok_iff (l : AsmLine) : (∃ c, assemble l = .ok c) ↔ l.wf = true := by
  cases l with
  | init key iv =>
    rw [wf_init_iff]
    by_cases hk : key.length = 128
    · by_cases hv : iv.length = 96
      · rw [assemble_init_ok hk hv]
        exact iff_of_true ⟨_, rfl⟩ ⟨hk, hv⟩
      · rw [assemble_init_badIv hk hv]
        exact iff_of_false (fun ⟨_, h⟩ => nomatch h) (fun h => hv h.2)
    · rw [assemble_init_badKey hk]
      exact iff_of_false (fun ⟨_, h⟩ => nomatch h) (fun h => hk h.1)
  | idle => exact iff_of_true ⟨_, rfl⟩ rfl
  | next m => exact iff_of_true ⟨_, rfl⟩ rfl
  | nextDash => exact iff_of_true ⟨_, rfl⟩ rfl
  | rsvd => exact iff_of_true ⟨_, rfl⟩ rfl

/-- The command of a word of the opcode table decodes to the instruction the table gives it. -/
theorem decode_commandOfTableWord {nbits w : Nat} {i : Instr}
    (h : decodeTableWord nbits w = some i) : decode (Machine.commandOfTableWord nbits w) = i := by
  unfold decodeTableWord decodeWord at h
  by_cases hw : wordWf (w % 2 ^ nbits) = true
  · rw [if_pos hw] at h
    exact Option.some.inj h
  · rw [if_neg hw] at h
    cases h

end Sys2Proof
end

section
/-! Facts about transactions: what one leaves alone, runs that begin with a command, and the runs
of the `NEXT` commands of a `KEYSTREAM` (spec 30_encoding.md R70, R74). -/

namespace Sys2Proof.Machine

section
variable {i : Instr} {s t u : State} {c : Command} {rest : List HostEvent}

/-- A transaction that completes takes nothing from the host's queue and leaves the port registers
alone but for `z`, which only an instruction that returns a bit writes (log 6). -/
theorem exec_frame (h : exec i s = .next t) :
    t.inputs = s.inputs ∧ t.port = { s.port with z := t.port.z } ∧
      (returnsBit i = false → t.port.z = s.port.z) := by
  obtain ⟨rfl, rfl⟩ | ⟨key, iv, rfl, rfl⟩ | ⟨m, rfl, -, rfl⟩ := exec_next_cases h
  · exact ⟨rfl, rfl, fun _ => rfl⟩
  · exact ⟨rfl, rfl, fun _ => rfl⟩
  · exact ⟨rfl, rfl, nofun⟩

/-- So does a step. -/
theorem step_port (h : step s = .next t) : t.port = { s.port with z := t.port.z } := by
  obtain ⟨-, rfl⟩ | ⟨rest, -, -, rfl⟩ | ⟨c, rest, -, hexec⟩ := step_next_cases h
  · rfl
  · rfl
  · obtain ⟨-, hport, -⟩ := exec_frame hexec
    exact hport

/-- No instruction is refused. -/
theorem exec_ne_refused (i : Instr) (s : State) (r : Refusal) : exec i s ≠ .refused r := by
  cases i with
  | idle => exact nofun
  | init key iv => exact nofun
  | next m =>
    by_cases hphase : s.engine.PHASE = .uninit
    · rw [exec_next_uninit m s hphase]; exact nofun
    · rw [exec_next_ready m s hphase]; exact nofun
  | rsvd x => exact nofun

/-- A transaction on two machines with the same engine and the same bit on `z`: the same fault, or
again the same engine and the same bit. -/
theorem exec_sameEngine (i : Instr) (heng : s.engine = u.engine) (hz : s.port.z = u.port.z) :
    Corresponds (fun s' u' => s'.engine = u'.engine ∧ s'.port.z = u'.port.z)
      (exec i s) (exec i u) := by
  cases i with
  | idle => exact ⟨heng, hz⟩
  | init key iv => exact ⟨congrArg (Engine.init key iv) heng, hz⟩
  | next m =>
    by_cases hphase : s.engine.PHASE = .uninit
    · rw [exec_next_uninit m s hphase, exec_next_uninit m u (heng ▸ hphase)]
      rfl
    · rw [exec_next_ready m s hphase, exec_next_ready m u (heng ▸ hphase), heng]
      exact ⟨rfl, rfl⟩
  | rsvd x => rfl

/-- Without authentication the message bit of a `NEXT` is ignored (R111). -/
theorem Engine.next_plain_ignores (m m' : Bit) {e : Engine} (h : e.AUTH = false) :
    e.next m = e.next m' := by
  unfold Engine.next; rw [h]; rfl

/-! Outcomes that correspond to a given one. -/

section
variable {rel : State → State → Prop} {o : Host.Outcome State Fault Refusal}

theorem Corresponds.of_next (h : Corresponds rel (.next s) o) : ∃ t, o = .next t ∧ rel s t := by
  cases o with
  | next t => exact ⟨t, rfl, h⟩
  | fault f => exact h.elim
  | refused r => exact h.elim

theorem Corresponds.of_fault {f : Fault} (h : Corresponds rel (.fault f) o) : o = .fault f := by
  cases o with
  | next t => exact h.elim
  | fault f' => exact congrArg _ (Eq.symm h)
  | refused r => exact h.elim

theorem Corresponds.of_refused {r : Refusal} (h : Corresponds rel (.refused r) o) :
    o = .refused r := by
  cases o with
  | next t => exact h.elim
  | fault f => exact h.elim
  | refused r' => exact congrArg _ (Eq.symm h)

end

/-! Runs that begin with a command. -/

theorem runEvents_of_inputs {evs : List HostEvent} (h : s.inputs = evs) :
    runEvents evs s = run evs.length s := by
  subst h; rfl

theorem runEvents_command (c : Command) (rest : List HostEvent) (s : State) :
    runEvents (.command c :: rest) s =
      andThen (exec (decode c) (s.withInputs rest)) (runEvents rest) := by
  rw [runEvents, List.length_cons, run_succ, step_withInputs_command]
  cases h : exec (decode c) (s.withInputs rest) with
  | next t =>
    obtain ⟨hin, -, -⟩ := exec_frame h
    exact (runEvents_of_inputs hin).symm
  | fault f => rfl
  | refused r => rfl

/-- What a command that completes shows, followed by the rest of the run. -/
theorem outcome_command_next (k : Nat) (h : exec (decode c) (s.withInputs rest) = .next t) :
    outcome (k + 1) (s.withInputs (.command c :: rest)) =
      (if returnsBit (decode c) then [.bit t.port.z] else []) ++ outcome k t := by
  simp only [outcome, step_withInputs_command, h, observe_command (State.withInputs_inputs s _)]

/-- A command that faults shows nothing, and nothing follows it. -/
theorem outcome_command_fault {f : Fault} (k : Nat)
    (h : exec (decode c) (s.withInputs rest) = .fault f) :
    outcome (k + 1) (s.withInputs (.command c :: rest)) = [] := by
  simp only [outcome, step_withInputs_command, h]

end

/-! The `NEXT` commands of a `KEYSTREAM` (R70). -/

section
variable (m : Bit) (M : List Bit) (s : State)

theorem pseudoKeystream_cons :
    pseudoKeystream (m :: M) = .command (encode (.next m)) :: pseudoKeystream M := rfl

@[simp] theorem length_pseudoKeystream : (pseudoKeystream M).length = M.length :=
  List.length_map _

/-- The machine after a `KEYSTREAM`: the engine of the fold, its last bit on `z`. -/
def State.afterKeystream : State :=
  { s with
    engine := (s.engine.keystream M).1
    port := { s.port with z := (s.engine.keystream M).2.getLastD s.port.z }
    inputs := [] }

/-- The machine after the first `NEXT` of a `KEYSTREAM`. -/
def State.afterNext : State := (s.withEngine (s.engine.next m).1).deliver (s.engine.next m).2

theorem State.afterNext_ready : (s.afterNext m).engine.PHASE ≠ .uninit := by
  show (s.engine.next m).1.PHASE ≠ .uninit
  rw [Engine.next_PHASE]; decide

theorem State.afterKeystream_cons (evs : List HostEvent) :
    ((s.withInputs evs).afterNext m).afterKeystream M = s.afterKeystream (m :: M) := by
  unfold State.afterKeystream
  rw [Engine.keystream_cons, List.getLastD_cons]
  rfl

variable {s}

theorem exec_encoded_next (evs : List HostEvent) (h : s.engine.PHASE ≠ .uninit) :
    exec (decode (encode (.next m))) (s.withInputs evs) =
      .next ((s.withInputs evs).afterNext m) := by
  rw [decode_encode]
  exact exec_next_ready m (s.withInputs evs) h

theorem exec_encoded_next_uninit (evs : List HostEvent) (h : s.engine.PHASE = .uninit) :
    exec (decode (encode (.next m))) (s.withInputs evs) = .fault (.uninitUse .next) := by
  rw [decode_encode]
  exact exec_next_uninit m (s.withInputs evs) h

/-- After any `INIT` the commands of a `KEYSTREAM` run to their end. -/
theorem runEvents_pseudoKeystream (h : s.engine.PHASE ≠ .uninit) :
    runEvents (pseudoKeystream M) s = .next (s.afterKeystream M) := by
  induction M generalizing s with
  | nil => rfl
  | cons m M ih =>
    rw [pseudoKeystream_cons, runEvents_command, exec_encoded_next m _ h, andThen_next,
      ih (State.afterNext_ready m _), State.afterKeystream_cons]

/-- They show the bits of the fold. -/
theorem outcome_pseudoKeystream (h : s.engine.PHASE ≠ .uninit) :
    outcome M.length (s.withInputs (pseudoKeystream M)) =
      (s.engine.keystream M).2.map Observation.bit := by
  induction M generalizing s with
  | nil => rfl
  | cons m M ih =>
    rw [pseudoKeystream_cons, List.length_cons,
      outcome_command_next M.length (exec_encoded_next m _ h), decode_encode]
    exact congrArg (_ :: ·)
      (ih (s := (s.withInputs (pseudoKeystream M)).afterNext m) (State.afterNext_ready m _))

/-- Before any `INIT` the first command of a `KEYSTREAM` faults. -/
theorem runEvents_pseudoKeystream_uninit (h : s.engine.PHASE = .uninit) (hM : M ≠ []) :
    runEvents (pseudoKeystream M) s = .fault (.uninitUse .next) := by
  obtain ⟨m, M, rfl⟩ := List.exists_cons_of_ne_nil hM
  rw [pseudoKeystream_cons, runEvents_command, exec_encoded_next_uninit m _ h, andThen_fault]

theorem outcome_pseudoKeystream_uninit (h : s.engine.PHASE = .uninit) (hM : M ≠ []) :
    outcome M.length (s.withInputs (pseudoKeystream M)) = [] := by
  obtain ⟨m, M, rfl⟩ := List.exists_cons_of_ne_nil hM
  rw [pseudoKeystream_cons, List.length_cons,
    outcome_command_fault M.length (exec_encoded_next_uninit m _ h)]

end

end Sys2Proof.Machine
end

section
/-! Facts about the port binding (spec 30_encoding.md R71, R72): what accepting a command and
counting down make of the port registers, sequences of edges while a transaction is in progress,
and the events a sequence of edges samples. -/

namespace Sys2Proof.Machine

/-! What the port registers owe a host that watches the pins. -/

/-- The bit `z` will show when the transaction in progress, if any, is complete. -/
def PortRegs.settledZ (p : PortRegs) : Bit :=
  if p.busyLeft = 0 then p.z else p.pending.getD p.z

/-- The bit the transaction in progress has still to present, if it has one. -/
def PortRegs.owed (p : PortRegs) : List Bit :=
  if p.busyLeft = 0 then [] else p.pending.toList

/-- The bit presented with `z_valid = 1`, if there is one. -/
def PortRegs.shown (p : PortRegs) : List Bit := if p.zValid then [p.z] else []

/-- A result is waiting only while busy, and `z_valid` is high only while not (R71). -/
def PortRegs.Consistent (p : PortRegs) : Prop :=
  (p.pending.isSome = true → p.busyLeft ≠ 0) ∧ (p.zValid = true → p.busyLeft = 0)

theorem State.portInv_iff (s : State) : s.PortInv ↔ s.port.Consistent := Iff.rfl

section
variable {p before : PortRegs} {i : Instr} {left : Nat} {z : Bit}

theorem PortRegs.settledZ_idle (h : p.busyLeft = 0) : p.settledZ = p.z := if_pos h
theorem PortRegs.owed_idle (h : p.busyLeft = 0) : p.owed = [] := if_pos h
theorem PortRegs.settledZ_busy (h : p.busyLeft ≠ 0) : p.settledZ = p.pending.getD p.z := if_neg h
theorem PortRegs.owed_busy (h : p.busyLeft ≠ 0) : p.owed = p.pending.toList := if_neg h

theorem PortRegs.draw_consistent (h : p.Consistent) : p.draw.Consistent := h

/-! Accepting a command: the result is there at once or is waited for. -/

theorem PortRegs.accept_now : before.accept i 0 z =
    { before with busyLeft := 0, pending := none, z := z, zValid := returnsBit i } := if_pos rfl

theorem PortRegs.accept_later (h : left ≠ 0) : before.accept i left z =
    { before with busyLeft := left, pending := if returnsBit i then some z else none,
                  zValid := false } := if_neg h

@[simp] theorem PortRegs.accept_busyLeft : (before.accept i left z).busyLeft = left := by
  by_cases h : left = 0
  · rw [h, accept_now]
  · rw [accept_later h]

theorem PortRegs.accept_consistent : (before.accept i left z).Consistent := by
  by_cases h : left = 0
  · rw [h, accept_now]
    exact ⟨nofun, fun _ => rfl⟩
  · rw [accept_later h]
    exact ⟨fun _ => h, nofun⟩

/-- The bit on `z` changes at once only where `z_valid` rises. -/
theorem PortRegs.accept_z_of_not_zValid (hquiet : returnsBit i = false → z = before.z)
    (h : (before.accept i left z).zValid = false) : (before.accept i left z).z = before.z := by
  by_cases hleft : left = 0
  · rw [hleft, accept_now] at h ⊢
    exact hquiet h
  · rw [accept_later hleft]

/-- A result is waited for when the instruction returns one. -/
theorem PortRegs.accept_pending_isSome (h : left ≠ 0) :
    (before.accept i left z).pending.isSome = returnsBit i := by
  rw [accept_later h]
  cases returnsBit i <;> rfl

/-- The bit that is waited for, or else kept, is the one of the transaction. -/
theorem PortRegs.accept_pending_getD (h : left ≠ 0)
    (hquiet : returnsBit i = false → z = before.z) :
    (before.accept i left z).pending.getD (before.accept i left z).z = z := by
  rw [accept_later h]
  cases hbit : returnsBit i with
  | true => rfl
  | false => exact (hquiet hbit).symm

/-- The bit `z` will show is the one of the transaction. -/
theorem PortRegs.accept_settledZ (hquiet : returnsBit i = false → z = before.z) :
    (before.accept i left z).settledZ = z := by
  by_cases h : left = 0
  · rw [h, accept_now]; rfl
  · rw [settledZ_busy (by rwa [accept_busyLeft]), accept_pending_getD h hquiet]

/-- What is presented at once or later is the result of the transaction. -/
theorem PortRegs.accept_shown_owed : (before.accept i left z).shown ++
    (before.accept i left z).owed = if returnsBit i then [z] else [] := by
  by_cases hleft : left = 0
  · rw [hleft, owed_idle accept_busyLeft, accept_now, List.append_nil]; rfl
  · rw [owed_busy (by rwa [accept_busyLeft]), accept_later hleft]
    cases returnsBit i <;> rfl

/-! Counting down: the last cycle presents the result that was waited for. -/

theorem PortRegs.countDown_last : p.countDown 0 =
    { p with busyLeft := 0, pending := none, z := p.pending.getD p.z,
             zValid := p.pending.isSome } := if_pos rfl

theorem PortRegs.countDown_more (h : left ≠ 0) :
    p.countDown left = { p with busyLeft := left, zValid := false } := if_neg h

theorem PortRegs.countDown_consistent : (p.countDown left).Consistent := by
  by_cases h : left = 0
  · rw [h, countDown_last]
    exact ⟨nofun, fun _ => rfl⟩
  · rw [countDown_more h]
    exact ⟨fun _ => h, nofun⟩

theorem PortRegs.countDown_z_of_not_zValid (h : (p.countDown left).zValid = false) :
    (p.countDown left).z = p.z := by
  by_cases hleft : left = 0
  · rw [hleft, countDown_last] at h ⊢
    rw [Option.isSome_eq_false_iff, Option.isNone_iff_eq_none] at h
    simp only [h, Option.getD_none]
  · rw [countDown_more hleft]

theorem PortRegs.countDown_settledZ : (p.countDown left).settledZ = p.pending.getD p.z := by
  by_cases h : left = 0
  · rw [h, countDown_last]; rfl
  · rw [countDown_more h]
    exact settledZ_busy h

theorem PortRegs.countDown_shown_owed :
    (p.countDown left).shown ++ (p.countDown left).owed = p.pending.toList := by
  by_cases h : left = 0
  · rw [h, countDown_last]
    cases p.pending <;> rfl
  · rw [countDown_more h]
    exact owed_busy h

end

/-! One edge. -/

section
variable {T : Config.Timing} {p : PortIn} {ps : List PortIn} {s t : State}

/-- Everything an edge can answer a next state with: the state after a reset, after the command on
the ports, or after one more cycle of the transaction in progress. -/
theorem clockEdge_next_cases (h : clockEdge T p s = .next t) :
    (p.rst = true ∧ t = portReset s) ∨
    (p.rst = false ∧ s.port.busyLeft = 0 ∧ ∃ s', exec (decode p.command) s = .next s' ∧
      t = { s' with port :=
      (s.port.accept (decode p.command) (cyclesOf T s.engine (decode p.command) - 1)
        s'.port.z).draw }) ∨
    (p.rst = false ∧ s.port.busyLeft ≠ 0 ∧
      t = { s with port := (s.port.countDown (s.port.busyLeft - 1)).draw }) := by
  by_cases hrst : p.rst = true
  · rw [clockEdge_reset T p s hrst] at h
    exact .inl ⟨hrst, by injection h with h; exact h.symm⟩
  · rw [Bool.not_eq_true] at hrst
    by_cases hbusy : s.port.busyLeft = 0
    · rw [clockEdge_free T p s hrst hbusy] at h
      obtain ⟨s', hexec, ht⟩ := andThen_eq_next h
      exact .inr (.inl ⟨hrst, hbusy, s', hexec, by injection ht with ht; exact ht.symm⟩)
    · rw [clockEdge_busy T p s hrst hbusy] at h
      exact .inr (.inr ⟨hrst, hbusy, by injection h with h; exact h.symm⟩)

/-- An edge that samples an `IDLE` drops `z_valid` and keeps the engine and the bit on `z`
(R71, R134). -/
theorem clockEdge_idle (T : Config.Timing) (hp : p.rst = false) (hop : p.op = 0b00#2)
    (hfree : s.port.busyLeft = 0) :
    ∃ t, clockEdge T p s = .next t ∧ t.engine = s.engine ∧ t.port.busyLeft = 0 ∧
      t.port.zValid = false ∧ t.port.z = s.port.z := by
  have hexec : exec (decode p.command) s = .next s := by rw [decode_portCommand_idle hop]; rfl
  rw [clockEdge_free T p s hp hfree, acceptCommand_next T s hexec, decode_portCommand_idle hop]
  exact ⟨_, rfl, rfl, rfl, rfl, rfl⟩

/-! The pins while no transaction is in progress (R61, R71). -/

theorem State.busy_iff (s : State) : s.busy = true ↔ s.port.busyLeft ≠ 0 := by
  simp only [State.busy, bne_iff_ne]

theorem State.busy_eq_false (h : s.port.busyLeft = 0) : s.busy = false := by
  rw [State.busy, h]; rfl

theorem State.pins_z_idle (h : s.port.busyLeft = 0) : s.pins.z = s.port.z := by
  simp only [State.pins, State.busy_eq_false h]; rfl

theorem State.pins_tag_idle (h : s.port.busyLeft = 0) (hphase : s.engine.PHASE ≠ .uninit) :
    s.pins.tag = s.engine.A := by
  simp only [State.pins, State.busy_eq_false h, Bool.false_or, beq_iff_eq, if_neg hphase]

theorem State.pins_idle (h : s.port.busyLeft = 0) (hphase : s.engine.PHASE ≠ .uninit) :
    s.pins = ⟨false, s.port.z, s.port.zValid, s.engine.A⟩ := by
  rw [← s.pins_z_idle h, ← s.pins_tag_idle h hphase, ← s.busy_eq_false h]
  rfl

/-! Edges while a transaction is in progress. -/

/-- Fewer edges than the transaction still occupies only count. -/
theorem runEdges_within (hrst : Claims.noReset ps) (hlen : ps.length < s.port.busyLeft)
    (hvalid : s.port.zValid = false) :
    runEdges T ps s = .next { s with port := { s.port with
      busyLeft := s.port.busyLeft - ps.length, draws := s.port.draws + ps.length } } := by
  induction ps generalizing s with
  | nil => rfl
  | cons p ps ih =>
    obtain ⟨hp, hps⟩ := List.forall_mem_cons.mp hrst
    rw [List.length_cons] at hlen
    rw [runEdges_cons, clockEdge_busy T p s hp (by omega), andThen_next,
      PortRegs.countDown_more (by omega), ih hps (by show _ < s.port.busyLeft - 1; omega) rfl]
    simp only [PortRegs.draw, List.length_cons, hvalid]
    congr 3 <;> omega

/-- As many edges as the transaction still occupies complete it and present its result. -/
theorem runEdges_complete (hrst : Claims.noReset ps) (hlen : ps.length = s.port.busyLeft)
    (hbusy : s.port.busyLeft ≠ 0) :
    ∃ t, runEdges T ps s = .next t ∧ t.engine = s.engine ∧ t.port.busyLeft = 0 ∧
      t.port.zValid = s.port.pending.isSome ∧ t.port.z = s.port.pending.getD s.port.z := by
  induction ps generalizing s with
  | nil => exact absurd hlen.symm hbusy
  | cons p ps ih =>
    obtain ⟨hp, hps⟩ := List.forall_mem_cons.mp hrst
    rw [List.length_cons] at hlen
    rw [runEdges_cons, clockEdge_busy T p s hp hbusy, andThen_next, ← hlen, Nat.add_sub_cancel]
    by_cases hlast : ps.length = 0
    · rw [hlast, List.eq_nil_of_length_eq_zero hlast, PortRegs.countDown_last]
      exact ⟨_, rfl, rfl, rfl, rfl, rfl⟩
    · rw [PortRegs.countDown_more hlast]
      exact ih hps rfl hlast

/-- An accepted command that does not fault, while fewer edges have passed than it occupies. -/
theorem runEdges_accepted_within {i : Instr} {s' : State} (hdec : decode p.command = i)
    (hfree : s.port.busyLeft = 0) (hp : p.rst = false) (hrst : Claims.noReset ps)
    (hexec : exec i s = .next s') (hlen : ps.length + 1 < cyclesOf T s.engine i) :
    ∃ t, runEdges T (p :: ps) s = .next t ∧ t.pins.busy = true ∧ t.pins.zValid = false ∧
      t.port.z = s.port.z := by
  subst hdec
  rw [runEdges_cons, clockEdge_free T p s hp hfree, acceptCommand_next T s hexec, andThen_next,
    PortRegs.accept_later (by omega)]
  refine ⟨_, runEdges_within hrst ?_ rfl, (State.busy_iff _).mpr ?_, rfl, rfl⟩
  · show ps.length < cyclesOf T s.engine (decode p.command) - 1
    omega
  · show cyclesOf T s.engine (decode p.command) - 1 - ps.length ≠ 0
    omega

/-- The same command after as many edges as it occupies: complete, its result on the pins. -/
theorem runEdges_accepted_complete {i : Instr} {s' : State} (hdec : decode p.command = i)
    (hfree : s.port.busyLeft = 0) (hp : p.rst = false) (hrst : Claims.noReset ps)
    (hexec : exec i s = .next s') (hphase : s'.engine.PHASE ≠ .uninit)
    (hlen : ps.length + 1 = cyclesOf T s.engine i) :
    ∃ t, runEdges T (p :: ps) s = .next t ∧ t.engine = s'.engine ∧ t.port.busyLeft = 0 ∧
      t.pins = ⟨false, s'.port.z, returnsBit i, s'.engine.A⟩ := by
  subst hdec
  obtain ⟨-, -, hquiet⟩ := exec_frame hexec
  rw [runEdges_cons, clockEdge_free T p s hp hfree, acceptCommand_next T s hexec, andThen_next,
    ← hlen, Nat.add_sub_cancel]
  by_cases hnow : ps.length = 0
  · rw [hnow, List.eq_nil_of_length_eq_zero hnow]
    exact ⟨_, rfl, rfl, rfl, State.pins_idle rfl hphase⟩
  · have hleft : (s.port.accept (decode p.command) ps.length s'.port.z).busyLeft = ps.length :=
      PortRegs.accept_busyLeft
    obtain ⟨t, hrun, heng, hdone, hvalid, hz⟩ := runEdges_complete (T := T) (s := { s' with port :=
      (s.port.accept (decode p.command) ps.length s'.port.z).draw }) hrst hleft.symm
      (hleft.trans_ne hnow)
    refine ⟨t, hrun, heng, hdone, ?_⟩
    rw [State.pins_idle hdone (heng ▸ hphase), heng, hvalid, hz]
    congr 1
    · exact PortRegs.accept_pending_getD hnow hquiet
    · exact PortRegs.accept_pending_isSome hnow

/-! What a sequence of edges samples and presents. -/

theorem sampledEvents_busy (hp : p.rst = false) (hbusy : s.port.busyLeft ≠ 0)
    (h : clockEdge T p s = .next t) : sampledEvents T (p :: ps) s = sampledEvents T ps t := by
  simp only [sampledEvents, samples, h, hp]
  simp [hbusy]

theorem sampledEvents_free_next (hp : p.rst = false) (hbusy : s.port.busyLeft = 0)
    (h : clockEdge T p s = .next t) :
    sampledEvents T (p :: ps) s = .command p.command :: sampledEvents T ps t := by
  simp only [sampledEvents, samples, h, hp]
  simp [hbusy]

theorem sampledEvents_free_fault {f : Fault} (hp : p.rst = false) (hbusy : s.port.busyLeft = 0)
    (h : clockEdge T p s = .fault f) : sampledEvents T (p :: ps) s = [.command p.command] := by
  simp only [sampledEvents, samples, h, hp]
  simp [hbusy]

theorem presentedBits_next (h : clockEdge T p s = .next t) :
    presentedBits T (p :: ps) s = t.port.shown ++ presentedBits T ps t := by
  simp only [presentedBits, h]; rfl

end

/-! The observed bits of a run. -/

theorem bitsOf_append (os os' : List Observation) : bitsOf (os ++ os') = bitsOf os ++ bitsOf os' :=
  List.filterMap_append

/-- The bit a completed command shows, as the port binding presents it. -/
theorem bitsOf_outcome_command {c : Command} {rest : List HostEvent} {s t : State} (k : Nat)
    (h : exec (decode c) (s.withInputs rest) = .next t) :
    bitsOf (outcome (k + 1) (s.withInputs (.command c :: rest))) =
      (if returnsBit (decode c) then [t.port.z] else []) ++ bitsOf (outcome k t) := by
  rw [outcome_command_next k h, bitsOf_append]
  cases returnsBit (decode c) <;> rfl

end Sys2Proof.Machine
end

section
/-! The simulation behind O47: the port binding adds time to the transactions and nothing else
(spec 30_encoding.md R75). -/

namespace Sys2Proof.Machine
open Sys2Proof.Claims

/-- The simulation relation between a machine `s` driven edge by edge and a machine `u` that has
performed the same transactions: the engines agree, and the bit `z` of `s` will show when the
transaction in progress is complete is the one `u` shows. -/
def Refines (s u : State) : Prop := s.engine = u.engine ∧ s.port.settledZ = u.port.z

/-- What a sequence of edges from `s` presents, with what is still owed at its end `t`, is what was
owed before it and the bits `u` shows in the transactions sampled. -/
def PresentsWhatTheTransactionsShow (T : Config.Timing) (ps : List PortIn) (s u t : State) : Prop :=
  presentedBits T ps s ++ t.port.owed = s.port.owed ++
    bitsOf (outcome (sampledEvents T ps s).length (u.withInputs (sampledEvents T ps s)))

section
variable {T : Config.Timing} {p : PortIn} {ps : List PortIn} {s t u : State}

/-- An edge of a transaction in progress changes nothing a host of transactions could tell. -/
theorem clockEdge_busy_refines (hp : p.rst = false) (hbusy : s.port.busyLeft ≠ 0)
    (h : Refines s u) : ∃ t, clockEdge T p s = .next t ∧ Refines t u ∧
      t.port.shown ++ t.port.owed = s.port.owed := by
  obtain ⟨heng, hz⟩ := h
  refine ⟨_, clockEdge_busy T p s hp hbusy, ⟨heng, ?_⟩, ?_⟩
  · rw [PortRegs.settledZ_busy hbusy] at hz
    exact PortRegs.countDown_settledZ.trans hz
  · rw [PortRegs.owed_busy hbusy]
    exact PortRegs.countDown_shown_owed

/-- An edge that samples a command corresponds to the transaction of the command: the same fault,
or related machines, the bit presented or owed being the one the transaction shows. -/
theorem clockEdge_free_refines (rest : List HostEvent) (hp : p.rst = false)
    (hfree : s.port.busyLeft = 0) (h : Refines s u) :
    Corresponds (fun t v => Refines t v ∧ v.inputs = rest ∧ t.port.shown ++ t.port.owed =
        if returnsBit (decode p.command) then [v.port.z] else [])
      (clockEdge T p s) (exec (decode p.command) (u.withInputs rest)) := by
  obtain ⟨heng, hz⟩ := h
  rw [PortRegs.settledZ_idle hfree] at hz
  rw [clockEdge_free T p s hp hfree]
  have hsame := exec_sameEngine (u := u.withInputs rest) (decode p.command) heng hz
  cases hexec : exec (decode p.command) s with
  | next s' =>
    rw [hexec] at hsame
    obtain ⟨v, hv, heng', hz'⟩ := hsame.of_next
    obtain ⟨-, -, hquiet⟩ := exec_frame hexec
    obtain ⟨hin, -, -⟩ := exec_frame hv
    rw [acceptCommand_next T s hexec, hv]
    refine ⟨⟨heng', (PortRegs.accept_settledZ hquiet).trans hz'⟩, hin, ?_⟩
    rw [← hz']
    exact PortRegs.accept_shown_owed
  | fault f =>
    rw [hexec] at hsame
    rw [acceptCommand_fault T s hexec, hsame.of_fault]
    rfl
  | refused r => exact absurd hexec (exec_ne_refused _ _ _)

theorem presents_busy (hp : p.rst = false) (hbusy : s.port.busyLeft ≠ 0)
    (hedge : clockEdge T p s = .next t) (howed : t.port.shown ++ t.port.owed = s.port.owed)
    {t' : State} (h : PresentsWhatTheTransactionsShow T ps t u t') :
    PresentsWhatTheTransactionsShow T (p :: ps) s u t' := by
  unfold PresentsWhatTheTransactionsShow at h ⊢
  rw [presentedBits_next hedge, sampledEvents_busy hp hbusy hedge, List.append_assoc, h,
    ← List.append_assoc, howed]

theorem presents_free (hp : p.rst = false) (hfree : s.port.busyLeft = 0)
    (hedge : clockEdge T p s = .next t) {v : State} (hin : v.inputs = sampledEvents T ps t)
    (hexec : exec (decode p.command) (u.withInputs (sampledEvents T ps t)) = .next v)
    (howed : t.port.shown ++ t.port.owed =
      if returnsBit (decode p.command) then [v.port.z] else [])
    {t' : State} (h : PresentsWhatTheTransactionsShow T ps t v t') :
    PresentsWhatTheTransactionsShow T (p :: ps) s u t' := by
  unfold PresentsWhatTheTransactionsShow at h ⊢
  rw [presentedBits_next hedge, sampledEvents_free_next hp hfree hedge, List.append_assoc, h,
    ← List.append_assoc, howed, List.length_cons, bitsOf_outcome_command _ hexec,
    PortRegs.owed_idle hfree, ← hin, State.withInputs_self, List.nil_append]

end

/-- The simulation: a sequence of edges and the transactions it samples, from related machines. -/
theorem runEdges_refines (T : Config.Timing) (ps : List PortIn) (s u : State)
    (hrst : noReset ps) (h : Refines s u) :
    Corresponds (fun t v => Refines t v ∧ PresentsWhatTheTransactionsShow T ps s u t)
      (runEdges T ps s) (runEvents (sampledEvents T ps s) u) := by
  induction ps generalizing s u with
  | nil => exact ⟨h, (List.append_nil _).symm⟩
  | cons p ps ih =>
    obtain ⟨hp, hps⟩ := List.forall_mem_cons.mp hrst
    rw [runEdges_cons]
    by_cases hfree : s.port.busyLeft = 0
    case neg =>
      obtain ⟨t, hedge, href, howed⟩ := clockEdge_busy_refines (T := T) hp hfree h
      rw [hedge, andThen_next, sampledEvents_busy hp hfree hedge]
      exact (ih t u hps href).mono fun t' v ⟨href', hbits⟩ =>
        ⟨href', presents_busy hp hfree hedge howed hbits⟩
    have hcmd (rest : List HostEvent) := clockEdge_free_refines (T := T) rest hp hfree h
    cases hedge : clockEdge T p s with
    | next t =>
      obtain ⟨v, hexec, href, hin, howed⟩ := (hedge ▸ hcmd (sampledEvents T ps t)).of_next
      rw [sampledEvents_free_next hp hfree hedge, runEvents_command, hexec]
      exact (ih t v hps href).mono fun t' v' ⟨href', hbits⟩ =>
        ⟨href', presents_free hp hfree hedge hin hexec howed hbits⟩
    | fault f =>
      have hfault := (hedge ▸ hcmd []).of_fault
      rw [sampledEvents_free_fault hp hfree hedge, runEvents_command, hfault]
      rfl
    | refused r => exact absurd (hedge ▸ hcmd []).of_refused (exec_ne_refused _ _ _)

end Sys2Proof.Machine
end

section
/-! Proofs of the statements on encoding (spec 30_encoding.md) that speak of the decoder, the
assembler and the transactions. -/

namespace Sys2Proof.Proofs
open Sys2Proof.Machine

/-- Settles O1: an instruction has one canonical word; two commands with one opcode are compared on
the inputs that opcode reads, and two with different opcodes never decode alike. -/
theorem decodeAndEncodeAgree : Obligations.DecodeAndEncodeAgree := by
  refine ⟨decode_encode, fun c c' => ⟨fun h => ?_, fun ⟨hop, hinputs⟩ =>
    (decode_eq_iff_of_op_eq hop).mpr hinputs⟩⟩
  have hop : c.cw.extractLsb' 1 2 = c'.cw.extractLsb' 1 2 := by
    rw [← op_decode, h, op_decode]
  exact ⟨hop, (decode_eq_iff_of_op_eq hop).mp h⟩

/-- Settles O5: the lines of fixed word by computation, `INIT` by the lemmas on its lengths and on
the bits of a written sequence. -/
theorem assemblerChecksLengthsAndKeepsBits : Obligations.AssemblerChecksLengthsAndKeepsBits := by
  refine ⟨assemble_ok_iff, ⟨_, rfl, rfl⟩, ⟨_, rfl, rfl⟩, ⟨_, rfl, rfl⟩, ⟨_, rfl, rfl⟩,
    ⟨_, rfl, rfl⟩, fun key iv => assemble_init_badKey, fun key iv => assemble_init_badIv, ?_,
    fun ds i d h j hj => getElem?_toBits_hex h hj⟩
  intro key iv hk hv
  refine ⟨_, assemble_init_ok hk hv, rfl, fun i hi => ?_, fun i hi => ?_⟩
  · exact getElem?_eq_getLsbD_vecOfBits (key.length_toBits.trans hk) hi
  · exact getElem?_eq_getLsbD_vecOfBits (iv.length_toBits.trans hv) hi

/-- Settles O2: the masked word is the opcode with `m` cleared, so each row of the map is a case of
the decoder; `NEXT` without authentication ignores its message bit in the engine. -/
theorem opcodeMapAndIgnoredInputs : Obligations.OpcodeMapAndIgnoredInputs := by
  refine ⟨fun p => ⟨op_portCommand p, m_portCommand p, rfl, rfl⟩, fun c => ?_, ?_, ?_,
    fun x s => ⟨_, rfl⟩⟩
  · exact ⟨fun h => decode_of_op_idle ((masked_eq_iff c.cw 0b00#2).mp h),
      fun h => decode_of_op_init ((masked_eq_iff c.cw 0b01#2).mp h),
      fun h => decode_of_op_next ((masked_eq_iff c.cw 0b10#2).mp h),
      fun h => decode_of_op_rsvd ((masked_eq_iff c.cw 0b11#2).mp h)⟩
  · intro c k v h
    have hop : c.cw.extractLsb' 1 2 ≠ 0b01#2 := mt (masked_eq_iff c.cw 0b01#2).mpr h
    exact (decode_eq_iff_of_op_eq (c := { c with key := k, iv := v }) (c' := c) rfl).mpr
      ⟨fun h => absurd h hop, fun _ => rfl⟩
  · intro m s hauth
    by_cases hphase : s.engine.PHASE = .uninit
    · rw [exec_next_uninit m s hphase, exec_next_uninit false s hphase]
    · rw [exec_next_ready m s hphase, exec_next_ready false s hphase,
        Engine.next_plain_ignores m false hauth]

/-- Settles O3: the eight words are the four opcodes with each message bit. -/
theorem everyWordDecodesAsTabled : Obligations.EveryWordDecodesAsTabled := fun k v =>
  ⟨decode_idleWord false k v, decode_idleWord true k v,
    decode_initWord false k v, decode_initWord true k v,
    decode_nextWord false k v, decode_nextWord true k v,
    decode_rsvdWord false k v, decode_rsvdWord true k v⟩

/-- Settles O4: the cases of `step`, and the word of the opcode table that `withFetchWord` puts at
the head of the queue. -/
theorem stepPerformsTheIssuedCommand : Obligations.StepPerformsTheIssuedCommand := by
  refine ⟨fun s c rest => step_command, fun s rest => step_readTag, fun s => step_nil, ?_⟩
  intro s nbits w i h
  rw [State.withFetchWord, step_withInputs_command, decode_commandOfTableWord h,
    State.withInputs_self]

/-- Settles O27: `RSVD` faults with the word it was coded by. -/
theorem reservedCodeFaults : Obligations.ReservedCodeFaults := fun _ => ⟨rfl, rfl⟩

/-- Settles O48: the commands of `KEYSTREAM.B` are those of `KEYSTREAM` over the bits of the bytes,
whose runs are known in both phases. -/
theorem keystreamBytesIsItsNexts : Obligations.KeystreamBytesIsItsNexts := by
  intro o B s
  have hlen : 8 * B.length = (Adapter.bitsOfBytes o B).length :=
    (Adapter.length_bitsOfBytes o B).symm
  rw [hlen]
  refine ⟨length_pseudoKeystream _, fun k b hk j hj => ?_, fun hphase => ?_,
    fun hphase hB => ?_⟩
  · rw [pseudoKeystreamBytes, pseudoKeystream, List.getElem?_map,
      Adapter.getElem?_bitsOfBytes hk hj]
    cases o with
    | msbFirst => rw [Adapter.getElem?_bitsOfByte_msbFirst b hj]; rfl
    | lsbFirst => rw [Adapter.getElem?_bitsOfByte_lsbFirst b hj]; rfl
  · exact ⟨runEvents_pseudoKeystream _ hphase, outcome_pseudoKeystream _ hphase,
      Engine.keystreamCall_ready _ _ hphase⟩
  · have hbits : Adapter.bitsOfBytes o B ≠ [] := by
      rw [← List.length_pos_iff, ← hlen]
      exact Nat.mul_pos (by decide) (List.length_pos_iff.mpr hB)
    refine ⟨runEvents_pseudoKeystream_uninit _ hphase hbits,
      outcome_pseudoKeystream_uninit _ hphase hbits, ?_⟩
    obtain ⟨m, ms, hcons⟩ := List.exists_cons_of_ne_nil hbits
    rw [Adapter.keystreamBytes, hcons, Engine.keystreamCall_uninit m _ ms hphase]

end Sys2Proof.Proofs
end

section
/-! Proofs of the statements on the port binding (spec 30_encoding.md R71 to R75). -/

namespace Sys2Proof.Proofs
open Sys2Proof.Machine Sys2Proof.Claims

/-- Settles O47: from a state that is not busy nothing is owed, and the simulation gives the same
fault or the same engine; where it ends not busy nothing is owed either. -/
theorem portBindingRefinesTheTransactions : Obligations.PortBindingRefinesTheTransactions := by
  intro T ps s hrst hfree
  refine (runEdges_refines T ps s s hrst ⟨rfl, PortRegs.settledZ_idle hfree⟩).mono ?_
  rintro t v ⟨⟨heng, hz⟩, hbits⟩
  refine ⟨heng, fun hdone => ?_⟩
  unfold PresentsWhatTheTransactionsShow at hbits
  rw [PortRegs.owed_idle hdone, PortRegs.owed_idle hfree, List.append_nil, List.nil_append] at hbits
  rw [PortRegs.settledZ_idle hdone] at hz
  exact ⟨hz, hbits⟩

/-- Settles O42: an edge with `busy = 1` only counts down, an edge with reset only resets. -/
theorem busyEdgesIgnoreThePorts : Obligations.BusyEdgesIgnoreThePorts := by
  intro T p p' s
  constructor
  · intro hp hp' hbusy
    rw [clockEdge_busy T p s hp hbusy, clockEdge_busy T p' s hp' hbusy]
    exact ⟨rfl, _, rfl, rfl, rfl⟩
  · intro hp hp'
    rw [clockEdge_reset T p s hp, clockEdge_reset T p' s hp']

/-- Settles O46: accepting a command and counting down leave consistent port registers whatever
they were, a reset edge clears them, and a transaction writes none of them but `z`. -/
theorem portRegistersStayConsistent : Obligations.PortRegistersStayConsistent := by
  constructor
  · intro T p s t _ hedge
    rw [State.portInv_iff]
    obtain ⟨-, rfl⟩ | ⟨-, -, s', -, rfl⟩ | ⟨-, -, rfl⟩ := clockEdge_next_cases hedge
    · exact ⟨nofun, nofun⟩
    · exact PortRegs.draw_consistent PortRegs.accept_consistent
    · exact PortRegs.draw_consistent PortRegs.countDown_consistent
  · intro s t hinv hstep
    rw [State.portInv_iff, step_port hstep]
    exact hinv

/-- Settles O49: the pins by their definition; an edge writes `z` where it accepts a command or
counts down, and there only with `z_valid`. -/
theorem outputPinsFollowTheRegisters : Obligations.OutputPinsFollowTheRegisters := by
  refine ⟨fun s => ⟨s.busy_iff, rfl, s.pins_z_idle, s.pins_tag_idle⟩, ?_⟩
  intro T p s t hp hedge hvalid
  obtain ⟨hrst, -⟩ | ⟨-, -, s', hexec, rfl⟩ | ⟨-, -, rfl⟩ := clockEdge_next_cases hedge
  · rw [hp] at hrst
    cases hrst
  · obtain ⟨-, -, hquiet⟩ := exec_frame hexec
    exact PortRegs.accept_z_of_not_zValid hquiet hvalid
  · exact PortRegs.countDown_z_of_not_zValid hvalid

/-- Settles O44: the accepted `NEXT` counts and completes like every accepted command, with the bit
and the engine of `Engine.next`; the `IDLE` after it occupies one edge. -/
theorem portDeliversNextInTime : Obligations.PortDeliversNextInTime := by
  intro T p ps s _ hphase hfree hp hop hrst
  have hdec : decode p.command = .next p.m := decode_portCommand_next hop
  have hexec := exec_next_ready p.m s hphase
  refine ⟨runEdges_accepted_within hdec hfree hp hrst hexec, fun hlen => ?_⟩
  have hready : (s.engine.next p.m).1.PHASE ≠ .uninit := by rw [Engine.next_PHASE]; decide
  obtain ⟨t, hrun, heng, hdone, hpins⟩ :=
    runEdges_accepted_complete hdec hfree hp hrst hexec hready hlen
  refine ⟨t, hrun, heng, ?_⟩
  rw [hpins]
  refine ⟨rfl, rfl, rfl, rfl, fun q hq hqop => ?_⟩
  obtain ⟨u, hedge, hueng, hudone, huvalid, huz⟩ := clockEdge_idle T hq hqop hdone
  refine ⟨u, hedge, hueng, u.busy_eq_false hudone, huvalid, ?_⟩
  rw [u.pins_z_idle hudone, huz, ← t.pins_z_idle hdone, hpins]

/-- Settles O45: the accepted `INIT` counts and completes like every accepted command, and returns
no bit. -/
theorem portCompletesInitInTime : Obligations.PortCompletesInitInTime := by
  intro T p ps s _ hfree hp hop hrst
  have hdec : decode p.command = .init p.key p.iv := decode_portCommand_init hop
  have hexec : exec (.init p.key p.iv) s = .next (s.withEngine (s.engine.init p.key p.iv)) := rfl
  constructor
  · intro hlen
    obtain ⟨t, hrun, hbusy, hvalid, -⟩ :=
      runEdges_accepted_within (T := T) hdec hfree hp hrst hexec hlen
    exact ⟨t, hrun, hbusy, hvalid⟩
  · intro hlen
    have hready : (s.engine.init p.key p.iv).PHASE ≠ .uninit := by
      rw [Engine.init_PHASE]; decide
    obtain ⟨t, hrun, heng, -, hpins⟩ :=
      runEdges_accepted_complete (T := T) hdec hfree hp hrst hexec hready hlen
    refine ⟨t, hrun, heng, ?_⟩
    rw [hpins]
    exact ⟨rfl, rfl, rfl, rfl⟩

end Sys2Proof.Proofs
end

section
/-! The core clock step as a map of the state arrays (spec 40_core_clock.md): what its functions
read, how far a bit has moved after some steps, that no step loses a bit, and its fixed points. -/

namespace Sys2Proof.Machine
open Sys2Proof.Claims

@[simp] theorem xorOf_nil : xorOf [] = false := rfl

@[simp] theorem xorOf_cons (b : Bit) (bs : List Bit) : xorOf (b :: bs) = (b ^^ xorOf bs) := rfl

section
variable {x x' : Regs}

/-! What the functions read (R81 to R85). The taps at indices 0 and 96 enter the feedbacks linearly,
so where all bits between them agree, these two alone tell the feedbacks apart. -/

theorem lfsrFeedback_eq_iff (h : ∀ i, 0 < i → i < 96 → x.L.getLsbD i = x'.L.getLsbD i) :
    lfsrFeedback x = lfsrFeedback x' ↔
      (x.L.getLsbD 0 ^^ x.L.getLsbD 96) = (x'.L.getLsbD 0 ^^ x'.L.getLsbD 96) := by
  have hL : ∀ i (hi : i < 128), 0 < i → i < 96 → x.L[i] = x'.L[i] := fun i _ => h i
  simp only [lfsrFeedback, hL, Nat.reduceLT, Bool.xor_right_comm _ _ x.L[96],
    Bool.xor_right_comm _ _ x'.L[96], Bool.xor_left_inj, BitVec.getLsbD_eq_getElem]

theorem nfsrFeedback_eq_iff (hL : x.L.getLsbD 0 = x'.L.getLsbD 0)
    (h : ∀ i, 0 < i → i < 96 → x.N.getLsbD i = x'.N.getLsbD i) :
    nfsrFeedback x = nfsrFeedback x' ↔
      (x.N.getLsbD 0 ^^ x.N.getLsbD 96) = (x'.N.getLsbD 0 ^^ x'.N.getLsbD 96) := by
  have hL0 : x.L[0] = x'.L[0] := hL
  have hN : ∀ i (hi : i < 128), 0 < i → i < 96 → x.N[i] = x'.N[i] := fun i _ => h i
  simp only [nfsrFeedback, hL0, hN, Nat.reduceLT, Bool.xor_comm x'.L[0], Bool.xor_left_inj,
    Bool.xor_right_comm _ _ x.N[96], Bool.xor_right_comm _ _ x'.N[96], BitVec.getLsbD_eq_getElem]

theorem lfsrFeedback_congr (h : ∀ i ≤ 96, x.L.getLsbD i = x'.L.getLsbD i) :
    lfsrFeedback x = lfsrFeedback x' := by
  rw [lfsrFeedback_eq_iff fun i _ hi => h i hi.le, h 0 (by decide), h 96 le_rfl]

theorem nfsrFeedback_congr (hL : x.L.getLsbD 0 = x'.L.getLsbD 0)
    (h : ∀ i ≤ 96, x.N.getLsbD i = x'.N.getLsbD i) : nfsrFeedback x = nfsrFeedback x' := by
  rw [nfsrFeedback_eq_iff hL fun i _ hi => h i hi.le, h 0 (by decide), h 96 le_rfl]

/-- The output bit does not read index 0 of either array. -/
theorem outputBit_congr (hL : ∀ i, 0 < i → i ≤ 94 → x.L.getLsbD i = x'.L.getLsbD i)
    (hN : ∀ i, 0 < i → i ≤ 95 → x.N.getLsbD i = x'.N.getLsbD i) : outputBit x = outputBit x' := by
  have hL' : ∀ i (hi : i < 128), 0 < i → i ≤ 94 → x.L[i] = x'.L[i] := fun i _ => hL i
  have hN' : ∀ i (hi : i < 128), 0 < i → i ≤ 95 → x.N[i] = x'.N[i] := fun i _ => hN i
  simp only [outputBit, outputFilter, hL', hN', Nat.reduceLT, Nat.reduceLeDiff]

end

/-! No step loses a bit (section 3). -/

/-- A shift discards bit 0 only: the arrays before it agree above index 0, and the inserted bits are
the same (00_scope.md R10). -/
theorem agree_of_shr_eq {n : Nat} {a b : BitVec (n + 1)} {v w : Bit} (h : shr a v = shr b w) :
    (∀ i, 0 < i → i ≤ n → a.getLsbD i = b.getLsbD i) ∧ v = w := by
  constructor
  · intro i hpos hi
    have hbit : (shr a v).getLsbD (i - 1) = (shr b w).getLsbD (i - 1) := by rw [h]
    rwa [getLsbD_shr, getLsbD_shr, if_neg (by omega), if_neg (by omega),
      Nat.sub_add_cancel hpos] at hbit
  · have htop : (shr a v).getLsbD n = (shr b w).getLsbD n := by rw [h]
    rwa [getLsbD_shr, getLsbD_shr, if_pos rfl, if_pos rfl] at htop

theorem eq_of_agree_of_zero {n : Nat} {a b : BitVec (n + 1)} (h0 : a.getLsbD 0 = b.getLsbD 0)
    (h : ∀ i, 0 < i → i ≤ n → a.getLsbD i = b.getLsbD i) : a = b := by
  refine BitVec.eq_of_getLsbD_eq fun i hi => ?_
  rcases Nat.eq_zero_or_pos i with rfl | hpos
  · exact h0
  · exact h i hpos (by omega)

/-- The bits above index 0 stand in the arrays after the step, they give the output bit, and the
inserted bits then give the two bits at index 0. -/
theorem clockRegs_injective : Function.Injective clockRegs := by
  intro x x' h
  obtain ⟨hshrL, hshrN⟩ := Regs.mk.inj h
  obtain ⟨hL, hf⟩ := agree_of_shr_eq hshrL
  obtain ⟨hN, hg⟩ := agree_of_shr_eq hshrN
  have hy : outputBit x = outputBit x' :=
    outputBit_congr (fun i hpos hi => hL i hpos (by omega)) fun i hpos hi => hN i hpos (by omega)
  have hL0 : x.L.getLsbD 0 = x'.L.getLsbD 0 := by
    rwa [hy, Bool.xor_left_inj, lfsrFeedback_eq_iff fun i hpos hi => hL i hpos (by omega),
      hL 96 (by decide) (by decide), Bool.xor_left_inj] at hf
  have hN0 : x.N.getLsbD 0 = x'.N.getLsbD 0 := by
    rwa [hy, Bool.xor_left_inj, nfsrFeedback_eq_iff hL0 fun i hpos hi => hN i hpos (by omega),
      hN 96 (by decide) (by decide), Bool.xor_left_inj] at hg
  calc x = ⟨x.L, x.N⟩ := rfl
    _ = ⟨x'.L, x'.N⟩ := by rw [eq_of_agree_of_zero hL0 hL, eq_of_agree_of_zero hN0 hN]

theorem clockTimes_injective (k : Nat) : Function.Injective (clockTimes k) := by
  induction k with
  | zero => exact Function.injective_id
  | succ k ih => exact ih.comp clockRegs_injective

/-! The fixed points (R93). -/

theorem clockTimes_eq_self {x : Regs} (h : clockRegs x = x) (k : Nat) : clockTimes k x = x := by
  induction k with
  | zero => rfl
  | succ k ih => rw [clockTimes_succ, h, ih]

theorem clockTimes_loaded_ne {v : Bit} {x : Regs} (h : x.AllAre v) (key : Key) (iv : IV) (k : Nat) :
    clockTimes k (loaded key iv) ≠ x := by
  rintro rfl
  exact not_allAre_loaded v key iv (allAre_of_clockTimes h)

/-! A bit that is still inside an array after some steps has only been moved (R86), so two states
agree at an index after them where they agreed that many indices above it. -/

section
variable {x x' : Regs} {k i : Nat}

theorem getLsbD_clockTimes_L (x : Regs) (h : i + k < 128) :
    (clockTimes k x).L.getLsbD i = x.L.getLsbD (i + k) := by
  induction k generalizing x with
  | zero => rfl
  | succ k ih =>
    rw [clockTimes_succ, ih _ (by omega), getLsbD_clockRegs_L, if_neg (by omega), Nat.add_assoc]

theorem getLsbD_clockTimes_N (x : Regs) (h : i + k < 128) :
    (clockTimes k x).N.getLsbD i = x.N.getLsbD (i + k) := by
  induction k generalizing x with
  | zero => rfl
  | succ k ih =>
    rw [clockTimes_succ, ih _ (by omega), getLsbD_clockRegs_N, if_neg (by omega), Nat.add_assoc]

/-! How long an inserted bit travels before it is read (R94): until the highest index that is
read. -/

theorem lfsrFeedback_clockTimes_congr (hk : k < 31)
    (h : ∀ i < 127, x.L.getLsbD i = x'.L.getLsbD i) :
    lfsrFeedback (clockTimes k x) = lfsrFeedback (clockTimes k x') :=
  lfsrFeedback_congr fun i hi => by
    rw [getLsbD_clockTimes_L x (by omega), getLsbD_clockTimes_L x' (by omega), h _ (by omega)]

theorem nfsrFeedback_clockTimes_congr (hk : k < 31)
    (hL : ∀ i < 127, x.L.getLsbD i = x'.L.getLsbD i)
    (hN : ∀ i < 127, x.N.getLsbD i = x'.N.getLsbD i) :
    nfsrFeedback (clockTimes k x) = nfsrFeedback (clockTimes k x') := by
  refine nfsrFeedback_congr ?_ fun i hi => ?_
  · rw [getLsbD_clockTimes_L x (by omega), getLsbD_clockTimes_L x' (by omega), hL _ (by omega)]
  · rw [getLsbD_clockTimes_N x (by omega), getLsbD_clockTimes_N x' (by omega), hN _ (by omega)]

theorem outputAt_congr (hk : k < 33) (hL : ∀ i ≤ 94 + k, x.L.getLsbD i = x'.L.getLsbD i)
    (hN : ∀ i ≤ 95 + k, x.N.getLsbD i = x'.N.getLsbD i) : outputAt x k = outputAt x' k := by
  refine outputBit_congr (fun i _ hi => ?_) fun i _ hi => ?_
  · rw [getLsbD_clockTimes_L x (by omega), getLsbD_clockTimes_L x' (by omega), hL _ (by omega)]
  · rw [getLsbD_clockTimes_N x (by omega), getLsbD_clockTimes_N x' (by omega), hN _ (by omega)]

/-- After 31 steps the bit from index 127 stands at index 96, which enters the feedback linearly. -/
theorem lfsrFeedback_clockTimes_ne (h : onlyTopDiffers x.L x'.L) :
    lfsrFeedback (clockTimes 31 x) ≠ lfsrFeedback (clockTimes 31 x') := by
  obtain ⟨hlow, htop⟩ := h
  have hagree : ∀ i < 96,
      (clockTimes 31 x).L.getLsbD i = (clockTimes 31 x').L.getLsbD i := fun i hi => by
    rw [getLsbD_clockTimes_L x (by omega), getLsbD_clockTimes_L x' (by omega), hlow _ (by omega)]
  rw [Ne, lfsrFeedback_eq_iff fun i _ => hagree i, hagree 0 (by decide), Bool.xor_right_inj,
    getLsbD_clockTimes_L x (by decide), getLsbD_clockTimes_L x' (by decide)]
  exact htop

theorem nfsrFeedback_clockTimes_ne (hL : x.L = x'.L) (h : onlyTopDiffers x.N x'.N) :
    nfsrFeedback (clockTimes 31 x) ≠ nfsrFeedback (clockTimes 31 x') := by
  obtain ⟨hlow, htop⟩ := h
  have hL0 : (clockTimes 31 x).L.getLsbD 0 = (clockTimes 31 x').L.getLsbD 0 := by
    rw [getLsbD_clockTimes_L x (by decide), getLsbD_clockTimes_L x' (by decide), hL]
  have hagree : ∀ i < 96,
      (clockTimes 31 x).N.getLsbD i = (clockTimes 31 x').N.getLsbD i := fun i hi => by
    rw [getLsbD_clockTimes_N x (by omega), getLsbD_clockTimes_N x' (by omega), hlow _ (by omega)]
  rw [Ne, nfsrFeedback_eq_iff hL0 fun i _ => hagree i, hagree 0 (by decide), Bool.xor_right_inj,
    getLsbD_clockTimes_N x (by decide), getLsbD_clockTimes_N x' (by decide)]
  exact htop

end

end Sys2Proof.Machine
end

section
/-! Proofs of the statements on the core clock step (spec 40_core_clock.md). -/

namespace Sys2Proof.Proofs
open Sys2Proof.Machine Sys2Proof.Claims

/-- Settles O9: both are fixed points of one step, and whatever leads into one of them has all its
bits equal, which the loaded arrays have not. -/
theorem fixedPointsAreUnreachable : Obligations.FixedPointsAreUnreachable := by
  have hzero : Regs.AllAre false ⟨0, 0⟩ := fun i _ => ⟨BitVec.getLsbD_zero, BitVec.getLsbD_zero⟩
  have hones : Regs.AllAre true ⟨BitVec.allOnes 128, BitVec.allOnes 128⟩ := fun i hi => by
    rw [BitVec.getLsbD_allOnes, decide_eq_true hi]
    exact ⟨rfl, rfl⟩
  refine ⟨fun k => ?_, fun k => ?_, fun key iv k => ?_⟩
  · have hfix : clockTimes k ⟨0, 0⟩ = ⟨0, 0⟩ := clockTimes_eq_self (by decide) k
    rw [outputAt, hfix]
    exact ⟨rfl, by decide⟩
  · have hfix := clockTimes_eq_self
      (x := ⟨BitVec.allOnes 128, BitVec.allOnes 128⟩) (by decide) k
    rw [outputAt, hfix]
    exact ⟨rfl, by decide⟩
  · exact ⟨clockTimes_loaded_ne hzero key iv k, clockTimes_loaded_ne hones key iv k⟩

/-- Settles O10: the step is injective, and so are its iterates. -/
theorem coreClockLosesNoState : Obligations.CoreClockLosesNoState :=
  fun k _ _ h => clockTimes_injective k h

/-- Settles O11: what the functions read bounds when a bit is read, index 96 enters the feedbacks
linearly, and two pairs of states show the difference in the output. For the LFSR's bit the product
`N[12] N[95] L[94]` shows it, its other factors being the bit from `N[45]` and the first inserted
bit; for the NFSR's bit `N[95] L[42]` does, the factor being the bit from `L[74]`. -/
theorem insertedBitIsReadLate : Obligations.InsertedBitIsReadLate := by
  refine ⟨fun x x' h => ?_, fun x x' hL hN => ?_, fun x x' h => ?_, fun x x' _ h => ?_,
    fun x x' hL h => ?_, ?_, ?_⟩
  · exact ⟨lfsrFeedback_congr fun i hi => (h i hi).1,
      nfsrFeedback_congr (h 0 (by decide)).1 fun i hi => (h i hi).2⟩
  · exact outputBit_congr (fun i _ => hL i) fun i _ => hN i
  · have hL : ∀ i < 127, x.L.getLsbD i = x'.L.getLsbD i := fun i hi => (h i hi).1
    have hN : ∀ i < 127, x.N.getLsbD i = x'.N.getLsbD i := fun i hi => (h i hi).2
    refine ⟨fun k hk => ?_, fun k hk => ?_, fun heq k hk => ?_⟩
    · exact ⟨lfsrFeedback_clockTimes_congr hk hL, nfsrFeedback_clockTimes_congr hk hL hN⟩
    · exact outputAt_congr (by omega) (fun i _ => hL i (by omega)) fun i _ => hN i (by omega)
    · exact outputAt_congr hk (fun i _ => hL i (by omega)) fun i _ => by rw [heq]
  · exact lfsrFeedback_clockTimes_ne h
  · exact nfsrFeedback_clockTimes_ne hL h
  · refine ⟨⟨0, .twoPow 128 45⟩, ⟨.twoPow 128 127, .twoPow 128 45⟩, rfl, ?_, by decide +kernel⟩
    unfold onlyTopDiffers
    decide
  · refine ⟨⟨.twoPow 128 74, 0⟩, ⟨.twoPow 128 74, .twoPow 128 127⟩, rfl, ?_, by decide +kernel⟩
    unfold onlyTopDiffers
    decide

/-- Settles O6: the tap lists written out are the model's sums, bracketed from the right. -/
theorem coreClockFunctionsFollowTheTapLists : Obligations.CoreClockFunctionsFollowTheTapLists := by
  intro x
  refine ⟨?_, ?_, ?_, ?_⟩
  · simp [lfsrFeedback]
  · simp [lfsrFeedback]
  · simp [nfsrFeedback, Bool.and_assoc]
  · simp [outputBit]

/-- Settles O7: the filter's formula on its taps, bracketed from the right. -/
theorem outputFilterIsItsFiveProducts : Obligations.OutputFilterIsItsFiveProducts := by
  intro x
  simp [outputFilter, filterFormula]

/-- Settles O8: every bit of the arrays after the step by `getLsbD_clockRegs_L` and
`getLsbD_clockRegs_N`, everything else by the frame of the step. -/
theorem coreClockShiftsAndInserts : Obligations.CoreClockShiftsAndInserts := by
  intro e
  refine ⟨e.clock_out, fun i hi => ?_, ?_, fun i hi => ?_, ?_, rfl, rfl, rfl, rfl⟩
  · exact (getLsbD_clockRegs_L e.regs i).trans (if_neg hi.ne)
  · exact getLsbD_clockRegs_L e.regs 127
  · exact (getLsbD_clockRegs_N e.regs i).trans (if_neg hi.ne)
  · exact getLsbD_clockRegs_N e.regs 127

end Sys2Proof.Proofs
end

section
/-! Facts about `INIT` that its statements share (spec 41_init.md): the bits of the loaded LFSR one
region at a time, the bits seeded into the MAC registers, and the meaning of the command. -/

namespace Sys2Proof.Machine

section
variable (iv : IV) {i : Nat}

/-- The IV's region of the loaded LFSR (R101). -/
theorem getLsbD_lfsrOf_iv (h : i < 96) : (lfsrOf iv).getLsbD i = iv.getLsbD i := by
  rw [getLsbD_lfsrOf, if_pos h]

/-- The 31 ones of the padding (R101). -/
theorem getLsbD_lfsrOf_ones (h : 96 ≤ i) (h' : i ≤ 126) : (lfsrOf iv).getLsbD i = true := by
  rw [getLsbD_lfsrOf, if_neg h.not_gt, decide_eq_true (Nat.lt_succ_of_le h')]

/-- The zero that ends the padding (R101). -/
theorem getLsbD_lfsrOf_top : (lfsrOf iv).getLsbD 127 = false := by
  rw [getLsbD_lfsrOf, if_neg (by decide)]; rfl

end

section
variable (e : Engine) (key : Key) (iv : IV) {j : Nat}

/-- With authentication the first 32 outputs seed the accumulator (R106): the second loop keeps
what the first one wrote. -/
theorem Engine.seed_A_bits (h : e.AUTH = true) (hj : j < 32) :
    e.seed.A.getLsbD j = outputAt e.regs j := by
  obtain ⟨-, hA, -, -⟩ := (e.seedAcc 32 0).seedSr_frame 32 0
  rw [e.seed_on h, hA, e.seedAcc_bits 32 0 j hj, if_pos (by omega), Nat.sub_zero]

/-- With authentication the next 32 outputs seed the shift register (R106): the second loop starts
from the arrays 32 steps after the loads. -/
theorem Engine.seed_R_bits (h : e.AUTH = true) (hj : j < 32) :
    e.seed.R.getLsbD j = outputAt e.regs (32 + j) := by
  obtain ⟨hregs, -, -, -⟩ := e.seedAcc_frame 32 0
  rw [e.seed_on h, Engine.seedSr_bits _ 32 0 j hj, if_pos (by omega), hregs, ← outputAt_add,
    Nat.sub_zero]

/-- With authentication `INIT` leaves the 64 seeding outputs in the MAC registers (R106). -/
theorem Engine.init_mac_auth (h : iv.getLsbD 0 = true) (hj : j < 32) :
    (e.init key iv).A.getLsbD j = outputAt ⟨lfsrOf iv, key⟩ j ∧
      (e.init key iv).R.getLsbD j = outputAt ⟨lfsrOf iv, key⟩ (32 + j) := by
  have hregs : (e.load key iv).regs = ⟨lfsrOf iv, key⟩ := by rw [e.load_eq]; rfl
  have hon : (e.load key iv).AUTH = true := by rw [e.load_eq]; exact h
  rw [e.init_eq, Engine.warm_A, Engine.warm_R, ← hregs]
  exact ⟨Engine.seed_A_bits _ hon hj, Engine.seed_R_bits _ hon hj⟩

/-- `INIT` completes in every state and replaces the engine only (R108, R109). -/
theorem exec_init (s : State) :
    exec (.init key iv) s = .next { s with engine := s.engine.init key iv } := rfl

end

end Sys2Proof.Machine
end

section
/-! Proofs of the statements on `INIT` (spec 41_init.md). -/

namespace Sys2Proof.Proofs
open Sys2Proof.Machine Sys2Proof.Claims

/-- Settles O12: the engine is `Engine.init` of the earlier one; its loads are read region by
region, and its state arrays and MAC registers by the mode. -/
theorem initLoadsAndSeeds : Obligations.InitLoadsAndSeeds := by
  intro key iv s
  have hregs := s.engine.init_regs key iv
  refine ⟨s.engine.init key iv, exec_init key iv s, s.engine.init_AUTH key iv,
    s.engine.init_PHASE key iv, fun _ => getLsbD_lfsrOf_iv iv, fun _ => getLsbD_lfsrOf_ones iv,
    getLsbD_lfsrOf_top iv, rfl, fun hplain => ?_, fun hauth => ?_⟩
  · obtain ⟨hA, hR⟩ := s.engine.init_mac_plain key iv hplain
    rw [hplain] at hregs
    exact ⟨congrArg Regs.L hregs, congrArg Regs.N hregs, hA, hR⟩
  · rw [hauth] at hregs
    exact ⟨hregs, fun i hi => (s.engine.init_mac_auth key iv hauth hi).1,
      fun i hi => (s.engine.init_mac_auth key iv hauth hi).2⟩

/-- Settles O13: `Engine.init` gives the same engine from every earlier one, so from the other
state's engine and from its own result too. -/
theorem initForgetsTheEarlierRun : Obligations.InitForgetsTheEarlierRun := by
  intro key iv s s'
  have hforget (t : State) : exec (.init key iv) t =
      .next { t with engine := s.engine.init key iv } := by
    rw [exec_init, t.engine.init_forgets key iv s.engine]
  exact ⟨s.engine.init key iv, hforget s, hforget s', hforget _⟩

/-- Settles O51: the loads leave the IV with its padding, the key and IV bit 0, which is also bit 0
of the loaded LFSR. -/
theorem loadsAreTheIvItsPaddingAndTheKey : Obligations.LoadsAreTheIvItsPaddingAndTheKey := by
  intro key iv e
  rw [e.load_eq]
  exact ⟨fun _ => getLsbD_lfsrOf_iv iv, fun _ => getLsbD_lfsrOf_ones iv, getLsbD_lfsrOf_top iv,
    rfl, (getLsbD_lfsrOf_iv iv (by decide)).symm, fun _ _ => rfl⟩

end Sys2Proof.Proofs
end

section
/-! Facts about the keystream and its tag accumulation (spec 42_keystream.md): the returned bits and
the state arrays counted in core clock steps, the bit stream through the shift register, and how the
accumulator depends on the message. -/

namespace Sys2Proof.Machine
open Sys2Proof.Claims

section
variable (e : Engine) (m m' : Bit) (M M' : List Bit)

/-! One keystream position (R111, R112). -/

theorem Engine.next_plain_eq (h : e.AUTH = false) :
    e.next m = (e.clock.1.stream, outputBit e.regs) := by
  unfold Engine.next; rw [h]; rfl

theorem Engine.next_auth_eq (h : e.AUTH = true) : e.next m =
    (((e.withRegs (clockTimes 2 e.regs)).macUpdate m (outputAt e.regs 1)).stream,
      outputBit e.regs) := by
  unfold Engine.next; rw [if_pos h]; rfl

/-- The output of a later step, after one keystream position. -/
theorem Engine.outputAt_next (k : Nat) :
    outputAt (e.next m).1.regs k = outputAt e.regs (clocksPerBit e.AUTH + k) := by
  rw [Engine.next_regs, outputAt_add]

/-! A keystream in core clock steps (R116). -/

theorem Engine.keystream_regs :
    (e.keystream M).1.regs = clockTimes (clocksPerBit e.AUTH * M.length) e.regs := by
  induction M generalizing e with
  | nil => rfl
  | cons m M ih =>
    rw [Engine.keystream_cons, ih, Engine.next_regs, Engine.next_AUTH, ← clockTimes_add,
      List.length_cons, Nat.mul_succ, Nat.add_comm]

/-- The returned bits are the first output of each position, so the message shows in their number
only. -/
theorem Engine.keystream_bits : (e.keystream M).2 =
    (List.range M.length).map (fun i => outputAt e.regs (clocksPerBit e.AUTH * i)) := by
  induction M generalizing e with
  | nil => rfl
  | cons m M ih =>
    have hstep : ∀ i, outputAt (e.next m).1.regs (clocksPerBit e.AUTH * i) =
        outputAt e.regs (clocksPerBit e.AUTH * (i + 1)) := fun i => by
      rw [Engine.outputAt_next, Nat.mul_succ, Nat.add_comm]
    rw [Engine.keystream_cons, ih, Engine.next_AUTH, List.length_cons, List.range_succ_eq_map,
      List.map_cons, List.map_map, Engine.next_out, Nat.mul_zero, outputAt_zero]
    exact congrArg (_ :: ·) (List.map_congr_left fun i _ => hstep i)

@[simp] theorem Engine.length_keystream : (e.keystream M).2.length = M.length := by
  rw [Engine.keystream_bits, List.length_map, List.length_range]

theorem Engine.keystream_append : e.keystream (M ++ M') =
    (((e.keystream M).1.keystream M').1,
      (e.keystream M).2 ++ ((e.keystream M).1.keystream M').2) := by
  induction M generalizing e with
  | nil => rfl
  | cons m M ih => rw [List.cons_append, Engine.keystream_cons, ih, Engine.keystream_cons]; rfl

theorem Engine.keystream_ready (h : e.PHASE ≠ .uninit) : (e.keystream M).1.PHASE ≠ .uninit := by
  induction M generalizing e with
  | nil => exact h
  | cons m M ih => exact ih _ (by rw [Engine.next_PHASE]; decide)

/-! The bit stream through the shift register (R120). -/

/-- The bits that stand in the shift register and those that will enter it: below 32 the register
itself, from 32 on the second output of each coming pair. -/
def Engine.macBit (k : Nat) : Bit :=
  if k < 32 then e.R.getLsbD k else outputAt e.regs (2 * (k - 32) + 1)

theorem Engine.macBit_of_lt {k : Nat} (h : k < 32) : e.macBit k = e.R.getLsbD k := if_pos h

theorem Engine.macBit_of_le {k : Nat} (h : 32 ≤ k) :
    e.macBit k = outputAt e.regs (2 * (k - 32) + 1) := if_neg h.not_gt

variable {e}

/-- One authenticated position moves the stream on by one bit (R113). -/
theorem Engine.next_macBit (h : e.AUTH = true) (k : Nat) :
    (e.next m).1.macBit k = e.macBit (k + 1) := by
  rcases Nat.lt_trichotomy k 31 with hlt | rfl | hgt
  · rw [Engine.macBit_of_lt _ (by omega), e.macBit_of_lt (by omega), Engine.next_R_auth m e h,
      getLsbD_shr, if_neg (by omega)]
  · rw [Engine.macBit_of_lt _ (by decide), e.macBit_of_le (by decide), Engine.next_R_auth m e h,
      getLsbD_shr, if_pos rfl]
  · have hindex : 2 + (2 * (k - 32) + 1) = 2 * (k + 1 - 32) + 1 := by omega
    rw [Engine.macBit_of_le _ (by omega), e.macBit_of_le (by omega), Engine.outputAt_next, h]
    exact congrArg _ hindex

theorem Engine.keystream_macBit (h : e.AUTH = true) (k : Nat) :
    (e.keystream M).1.macBit k = e.macBit (M.length + k) := by
  induction M generalizing e with
  | nil => rw [List.length_nil, Nat.zero_add]; rfl
  | cons m M ih =>
    rw [Engine.keystream_cons, ih ((e.next_AUTH m).trans h), Engine.next_macBit m h,
      List.length_cons, Nat.add_right_comm]

/-- The shift register of position `i` is the stream from bit `i` on. -/
theorem getLsbD_shiftRegAt (h : e.AUTH = true) {i j : Nat} (hi : i ≤ M.length) (hj : j < 32) :
    (shiftRegAt M i e).getLsbD j = e.macBit (i + j) := by
  rw [shiftRegAt, ← Engine.macBit_of_lt _ hj, Engine.keystream_macBit _ h,
    List.length_take_of_le hi]

theorem shiftRegAt_cons_succ (i : Nat) :
    shiftRegAt (m :: M) (i + 1) e = shiftRegAt M i (e.next m).1 := rfl

/-! The accumulator (R113). No step reads it, so a difference in it stays the difference, whatever
follows. -/

variable (e)

/-- The engine with `d` exclusive-ORed into its accumulator. -/
def Engine.addAcc (d : Reg32) : Engine := { e with A := e.A ^^^ d }

theorem Engine.addAcc_regs (d : Reg32) : (e.addAcc d).regs = e.regs := rfl

theorem Engine.addAcc_zero : e.addAcc 0 = e := by
  unfold Engine.addAcc; rw [BitVec.ofNat_eq_ofNat, BitVec.xor_zero]

theorem Engine.macUpdate_addAcc (y : Bit) (d : Reg32) :
    (e.addAcc d).macUpdate m y = (e.macUpdate m y).addAcc d := by
  unfold Engine.macUpdate Engine.addAcc
  simp only [BitVec.xor_assoc, BitVec.xor_comm d]

theorem Engine.next_addAcc (d : Reg32) :
    (e.addAcc d).next m = ((e.next m).1.addAcc d, (e.next m).2) := by
  cases h : e.AUTH with
  | false => rw [e.next_plain_eq m h, Engine.next_plain_eq (e.addAcc d) m h]; rfl
  | true =>
    have hregs : (e.addAcc d).withRegs (clockTimes 2 e.regs) =
        (e.withRegs (clockTimes 2 e.regs)).addAcc d := rfl
    rw [e.next_auth_eq m h, Engine.next_auth_eq (e.addAcc d) m h, Engine.addAcc_regs, hregs,
      Engine.macUpdate_addAcc]
    rfl

theorem Engine.keystream_addAcc (d : Reg32) :
    (e.addAcc d).keystream M = ((e.keystream M).1.addAcc d, (e.keystream M).2) := by
  induction M generalizing e with
  | nil => rfl
  | cons m M ih => rw [Engine.keystream_cons, Engine.next_addAcc, ih]; rfl

theorem Engine.macUpdate_otherBit (y : Bit) :
    e.macUpdate m' y = (e.macUpdate m y).addAcc (absorbed (m ^^ m') e.R) := by
  have habsorbed : absorbed m' e.R = absorbed m e.R ^^^ absorbed (m ^^ m') e.R := by
    cases m <;> cases m' <;> simp
  unfold Engine.macUpdate Engine.addAcc
  rw [habsorbed, BitVec.xor_assoc]

/-- Another message bit changes the accumulator only, and with authentication only. -/
theorem Engine.next_otherBit : (e.next m').1 =
    (e.next m).1.addAcc (if e.AUTH then absorbed (m ^^ m') e.R else 0) := by
  cases h : e.AUTH with
  | false => rw [e.next_plain_ignores m' m h]; exact (Engine.addAcc_zero _).symm
  | true =>
    rw [e.next_auth_eq m h, e.next_auth_eq m' h, Engine.macUpdate_otherBit _ m m']
    rfl

/-- So another message of the same length leaves an engine that differs in the accumulator at
most (R119). -/
theorem Engine.keystream_otherMessage (h : M.length = M'.length) :
    ∃ d, (e.keystream M').1 = (e.keystream M).1.addAcc d := by
  induction M generalizing M' e with
  | nil =>
    obtain rfl := List.eq_nil_of_length_eq_zero h.symm
    exact ⟨0, (Engine.addAcc_zero _).symm⟩
  | cons m M ih =>
    obtain ⟨m', M', rfl⟩ := List.exists_cons_of_length_eq_add_one h.symm
    obtain ⟨d, hd⟩ := ih (e.next m).1 M' (Nat.succ.inj h)
    refine ⟨d ^^^ if e.AUTH then absorbed (m ^^ m') e.R else 0, ?_⟩
    rw [Engine.keystream_cons, e.next_otherBit m m', Engine.keystream_addAcc, hd,
      Engine.keystream_cons]
    unfold Engine.addAcc
    rw [BitVec.xor_assoc]

variable {e}

/-- The accumulator absorbs the shift register of each position whose message bit is 1 (R120). -/
theorem Engine.keystream_A_bits (h : e.AUTH = true) (j : Nat) :
    (e.keystream M).1.A.getLsbD j = (e.A.getLsbD j ^^ xorOf ((List.range M.length).map
      (fun i => M.getD i false && (shiftRegAt M i e).getLsbD j))) := by
  induction M generalizing e with
  | nil => exact (Bool.xor_false _).symm
  | cons m M ih =>
    rw [Engine.keystream_cons, ih ((e.next_AUTH m).trans h), Engine.next_A_auth m e h,
      BitVec.getLsbD_xor, getLsbD_absorbed, Bool.xor_assoc, List.length_cons,
      List.range_succ_eq_map, List.map_cons, List.map_map, xorOf_cons]
    rfl

/-- Flipping message bit `i` of an authenticated engine adds `R_i` to the accumulator (R124). -/
theorem Engine.keystream_modify_A (h : e.AUTH = true) {i : Nat} (hi : i < M.length) :
    (e.keystream (M.modify i (fun b => !b))).1.A =
      (e.keystream M).1.A ^^^ shiftRegAt M i e := by
  induction M generalizing e i with
  | nil => exact absurd hi (Nat.not_lt_zero i)
  | cons m M ih =>
    cases i with
    | zero =>
      rw [List.modify_zero_cons, Engine.keystream_cons, e.next_otherBit m, h, Bool.xor_not_self,
        Engine.keystream_addAcc]
      rfl
    | succ i =>
      rw [List.modify_succ_cons, Engine.keystream_cons, shiftRegAt_cons_succ]
      exact ih ((e.next_AUTH m).trans h) (Nat.lt_of_succ_lt_succ hi)

end

/-! A keystream after `INIT`, counted from the loads (R105, R120). -/

section
variable (e : Engine) {key : Key} {iv : IV}

theorem Engine.init_regs_plain (h : iv.getLsbD 0 = false) :
    (e.init key iv).regs = loaded key iv := by
  rw [Engine.init_regs, h]; rfl

theorem Engine.init_regs_auth (h : iv.getLsbD 0 = true) :
    (e.init key iv).regs = clockTimes 64 (loaded key iv) := by
  rw [Engine.init_regs, h]; rfl

/-- The stream through the shift register after `INIT` begins with the seed bits. -/
theorem Engine.init_macBit (h : iv.getLsbD 0 = true) (k : Nat) :
    (e.init key iv).macBit k = macStream (loaded key iv) k := by
  by_cases hk : k < 32
  · rw [macStream, if_pos hk, Engine.macBit_of_lt _ hk]
    exact (e.init_mac_auth key iv h hk).2
  · rw [macStream, if_neg hk, Engine.macBit_of_le _ (Nat.le_of_not_lt hk), e.init_regs_auth h,
      ← outputAt_add, Nat.add_assoc]

end

end Sys2Proof.Machine
end

section
/-! Facts about the host's events (spec 30_encoding.md R74, 70_reset_and_hazards.md R174): what one
does and shows, runs that begin with one, and runs in two parts. -/

namespace Sys2Proof.Machine

/-- What the engine does at an event. -/
def HostEvent.perform (ev : HostEvent) (s : State) : Host.Outcome State Fault Refusal :=
  match ev with
  | .command c => exec (decode c) s
  | .readTag => Machine.readTag s

/-- What an event that ends in `t` has shown. -/
def HostEvent.shown (ev : HostEvent) (t : State) : List Observation :=
  match ev with
  | .command c => if returnsBit (decode c) then [.bit t.port.z] else []
  | .readTag => [.tag t.engine.A]

theorem perform_issue (i : Instr) (s : State) : (issue i).perform s = exec i s :=
  congrArg (fun i => exec i s) (decode_encode i)

theorem shown_issue (i : Instr) (t : State) :
    (issue i).shown t = if returnsBit i then [.bit t.port.z] else [] :=
  congrArg (fun i => if returnsBit i then [Observation.bit t.port.z] else []) (decode_encode i)

section
variable (ev : HostEvent) (evs rest : List HostEvent) {s t : State}

theorem step_withInputs_cons (s : State) :
    step (s.withInputs (ev :: rest)) = ev.perform (s.withInputs rest) := by
  cases ev <;> rfl

theorem observe_withInputs_cons (s t : State) :
    observe (s.withInputs (ev :: rest)) t = ev.shown t := by
  cases ev <;> rfl

theorem shown_withInputs (t : State) : ev.shown (t.withInputs evs) = ev.shown t := by
  cases ev <;> rfl

theorem readTag_ready (h : s.engine.PHASE ≠ .uninit) : readTag s = .next s := by
  unfold readTag Engine.tag; rw [if_neg h]; rfl

/-! No event reads or writes the host's queue. -/

theorem exec_withInputs (i : Instr) (s : State) : exec i (s.withInputs evs) =
    andThen (exec i s) (fun t => .next (t.withInputs evs)) := by
  cases i with
  | idle => rfl
  | init key iv => rfl
  | next m =>
    by_cases h : s.engine.PHASE = .uninit
    · rw [exec_next_uninit m s h, exec_next_uninit m (s.withInputs evs) h]; rfl
    · rw [exec_next_ready m s h, exec_next_ready m (s.withInputs evs) h]; rfl
  | rsvd x => rfl

theorem perform_withInputs (s : State) : ev.perform (s.withInputs evs) =
    andThen (ev.perform s) (fun t => .next (t.withInputs evs)) := by
  cases ev with
  | command c => exact exec_withInputs evs (decode c) s
  | readTag =>
    show readTag (s.withInputs evs) = andThen (readTag s) _
    by_cases h : s.engine.PHASE = .uninit
    · rw [readTag_uninit s h, readTag_uninit (s.withInputs evs) h]; rfl
    · rw [readTag_ready h, readTag_ready (s := s.withInputs evs) h]; rfl

/-- Two sequences with the same first part end alike when what follows its next state does. -/
theorem andThen_congr {σ τ : Type} {o : Host.Outcome σ Fault Refusal}
    {k k' : σ → Host.Outcome τ Fault Refusal} (h : ∀ t, o = .next t → k t = k' t) :
    andThen o k = andThen o k' := by
  cases o with
  | next t => exact h t rfl
  | fault f => rfl
  | refused r => rfl

/-! Runs that begin with an event. -/

theorem runEvents_cons (s : State) :
    runEvents (ev :: rest) s = andThen (ev.perform s) (runEvents rest) := by
  rw [runEvents, List.length_cons, run_succ, step_withInputs_cons, perform_withInputs,
    andThen_assoc]
  rfl

theorem outcome_cons_next (k : Nat) (h : ev.perform s = .next t) :
    outcome (k + 1) (s.withInputs (ev :: rest)) = ev.shown t ++ outcome k (t.withInputs rest) := by
  have hstep : step (s.withInputs (ev :: rest)) = .next (t.withInputs rest) := by
    rw [step_withInputs_cons, perform_withInputs, h]; rfl
  simp only [outcome, hstep, observe_withInputs_cons, shown_withInputs]

/-- An event that does not complete shows nothing, and nothing follows it. -/
theorem outcome_cons_stop (k : Nat) (h : ∀ t, ev.perform s ≠ .next t) :
    outcome (k + 1) (s.withInputs (ev :: rest)) = [] := by
  have hstep : step (s.withInputs (ev :: rest)) =
      andThen (ev.perform s) (fun t => .next (t.withInputs rest)) := by
    rw [step_withInputs_cons, perform_withInputs]
  cases hp : ev.perform s with
  | next t => exact absurd hp (h t)
  | fault f => rw [hp] at hstep; simp only [outcome, hstep, andThen_fault]
  | refused r => rw [hp] at hstep; simp only [outcome, hstep, andThen_refused]

/-- Two runs that begin with the same event show the same bits when what follows it does. -/
theorem bitsOf_outcome_cons_congr {rest rest' : List HostEvent} {k k' : Nat}
    (h : ∀ t, ev.perform s = .next t →
      bitsOf (outcome k (t.withInputs rest)) = bitsOf (outcome k' (t.withInputs rest'))) :
    bitsOf (outcome (k + 1) (s.withInputs (ev :: rest))) =
      bitsOf (outcome (k' + 1) (s.withInputs (ev :: rest'))) := by
  by_cases hnext : ∃ t, ev.perform s = .next t
  · obtain ⟨t, ht⟩ := hnext
    rw [outcome_cons_next ev _ _ ht, outcome_cons_next ev _ _ ht, bitsOf_append, bitsOf_append,
      h t ht]
  · have hstop := not_exists.mp hnext
    rw [outcome_cons_stop ev _ _ hstop, outcome_cons_stop ev _ _ hstop]

/-- What a run that completes shows, followed by what the next events show. -/
theorem outcome_append (h : runEvents evs s = .next t) :
    outcome (evs ++ rest).length (s.withInputs (evs ++ rest)) =
      outcome evs.length (s.withInputs evs) ++ outcome rest.length (t.withInputs rest) := by
  induction evs generalizing s with
  | nil => injection h with h; subst h; rfl
  | cons ev evs ih =>
    rw [runEvents_cons] at h
    obtain ⟨u, hperf, hrun⟩ := andThen_eq_next h
    rw [List.cons_append, List.length_cons, List.length_cons, outcome_cons_next ev _ _ hperf,
      outcome_cons_next ev _ _ hperf, ih hrun, List.append_assoc]

end

/-- An issued `INIT` completes and shows nothing. -/
theorem outcome_issued_init (key : Key) (iv : IV) (rest : List HostEvent) (k : Nat) (s : State) :
    outcome (k + 1) (s.withInputs (issue (.init key iv) :: rest)) =
      outcome k ((s.withEngine (s.engine.init key iv)).withInputs rest) := by
  rw [outcome_cons_next _ rest k ((perform_issue _ s).trans (exec_init key iv s)), shown_issue]
  rfl

/-! `IDLE` commands and tag reads (43_tag_idle.md R130, R134). -/

section
variable {ev : HostEvent} {s t : State}

/-- The quiet events are the tag read and the commands that decode to `IDLE`. -/
theorem isQuiet_cases (h : isQuiet ev = true) :
    ev = .readTag ∨ ∃ c, ev = .command c ∧ decode c = .idle := by
  cases ev with
  | readTag => exact .inl rfl
  | command c =>
    unfold isQuiet at h
    cases hdec : decode c with
    | idle => exact .inr ⟨c, rfl, hdec⟩
    | init key iv => simp [hdec] at h
    | next m => simp [hdec] at h
    | rsvd x => simp [hdec] at h

/-- After any `INIT` a quiet event completes, changes nothing and shows no keystream bit. -/
theorem perform_quiet (hq : isQuiet ev = true) (hphase : s.engine.PHASE ≠ .uninit) :
    ev.perform s = .next s ∧ bitsOf (ev.shown s) = [] := by
  obtain rfl | ⟨c, rfl, hdec⟩ := isQuiet_cases hq
  · exact ⟨readTag_ready hphase, rfl⟩
  · unfold HostEvent.perform HostEvent.shown
    simp only [hdec]
    exact ⟨rfl, rfl⟩

/-- No event leads back to `UNINIT` (10_state.md R26). -/
theorem perform_keeps_ready (hphase : s.engine.PHASE ≠ .uninit) (h : ev.perform s = .next t) :
    t.engine.PHASE ≠ .uninit := by
  cases ev with
  | readTag =>
    obtain rfl : s = t := by injection (readTag_ready hphase).symm.trans h
    exact hphase
  | command c =>
    obtain ⟨-, rfl⟩ | ⟨key, iv, -, rfl⟩ | ⟨m, -, -, rfl⟩ := exec_next_cases h
    · exact hphase
    · exact nofun
    · exact State.afterNext_ready m s

end

end Sys2Proof.Machine
end

section
/-! Facts about the passes of the host (spec 42_keystream.md R118, R122 to R124): the exclusive-OR
of a buffer with a keystream, and a keystream that depends on the buffer's length only. -/

namespace Sys2Proof.Adapter
open Sys2Proof.Machine Sys2Proof.Claims

section
variable {p z : List Bit} (i : Nat)

theorem length_xorBits (h : p.length = z.length) : (xorBits p z).length = p.length := by
  rw [xorBits, List.length_zipWith, h, Nat.min_self]

@[simp] theorem length_flipBit : (flipBit i p).length = p.length := List.length_modify _ _ _

theorem xorBits_xorBits (h : p.length = z.length) : xorBits (xorBits p z) z = p := by
  induction p generalizing z with
  | nil => rfl
  | cons a p ih =>
    obtain ⟨b, z, rfl⟩ := List.exists_cons_of_length_eq_add_one h.symm
    show ((a ^^ b) ^^ b) :: xorBits (xorBits p z) z = a :: p
    rw [ih (Nat.succ.inj h), Bool.xor_assoc, Bool.xor_self, Bool.xor_false]

theorem xorBits_flipBit : xorBits (flipBit i p) z = flipBit i (xorBits p z) := by
  induction p generalizing i z with
  | nil => cases i <;> rfl
  | cons a p ih =>
    cases z with
    | nil => cases i <;> rfl
    | cons b z =>
      cases i with
      | zero => exact congrArg (· :: xorBits p z) (Bool.not_xor a b)
      | succ i => exact congrArg ((a ^^ b) :: ·) (ih i)

end

section
variable (key : Key) (iv : IV) {B B' : List Bit} (e e' : Engine)

/-- A pass forgets what the engine held before (R108). -/
theorem pass_forgets : pass key iv B e = pass key iv B e' := by
  rw [pass, e.init_forgets key iv e']; rfl

@[simp] theorem length_pass_bits : (pass key iv B e).2.length = B.length :=
  Engine.length_keystream _ B

/-- Two passes over buffers of one length return the same keystream (R119). -/
theorem pass_bits (h : B.length = B'.length) : (pass key iv B e).2 = (pass key iv B' e').2 := by
  rw [pass_forgets key iv e e', pass, pass, Engine.keystream_bits, Engine.keystream_bits, h]

@[simp] theorem length_combine : (combine key iv B e).length = B.length :=
  length_xorBits (length_pass_bits key iv e).symm

/-- A second pass undoes the first (R122). -/
theorem combine_combine : combine key iv (combine key iv B e) e' = B := by
  have hbits : (pass key iv (combine key iv B e) e').2 = (pass key iv B e).2 :=
    pass_bits key iv e' e (length_combine key iv e)
  rw [combine, hbits]
  exact xorBits_xorBits (length_pass_bits key iv e).symm

theorem combine_flipBit (i : Nat) :
    combine key iv (flipBit i B) e = flipBit i (combine key iv B e) := by
  rw [combine, pass_bits key iv e e (length_flipBit i)]
  exact xorBits_flipBit i

end

end Sys2Proof.Adapter
end

section
/-! Proofs of the statements on `NEXT` and the keystream (spec 42_keystream.md). -/

namespace Sys2Proof.Proofs
open Sys2Proof.Machine Sys2Proof.Claims

/-- Settles O14: the unauthenticated position is one core clock step, and the returned bits of a
keystream are counted from the arrays `INIT` has loaded. -/
theorem nextWithoutAuthentication : Obligations.NextWithoutAuthentication := by
  constructor
  · intro m s hphase hauth
    rw [exec_next_ready m s hphase, Engine.next_plain_eq _ m hauth]
    rfl
  · intro key iv e M hplain
    rw [Engine.keystream_bits, Engine.init_AUTH, hplain, e.init_regs_plain hplain]
    exact List.map_congr_left fun i _ => congrArg _ (Nat.one_mul i)

/-- Settles O15: the engine is that of `Engine.next`, read item by item; the bits of `R` are those
of a shift. -/
theorem nextWithAuthentication : Obligations.NextWithAuthentication := by
  intro m s hphase hauth
  have hregs := s.engine.next_regs m
  rw [hauth] at hregs
  refine ⟨(s.engine.next m).1, ?_, hregs, fun j _ => ?_, fun j hj => ?_, ?_,
    (s.engine.next_AUTH m).trans hauth, s.engine.next_PHASE m⟩
  · rw [exec_next_ready m s hphase, Engine.next_out, outputAt_zero]; rfl
  · rw [Engine.next_A_auth m _ hauth, BitVec.getLsbD_xor, getLsbD_absorbed]
  · rw [Engine.next_R_auth m _ hauth, getLsbD_shr, if_neg hj.ne]
  · rw [Engine.next_R_auth m _ hauth, getLsbD_shr, if_pos rfl]; rfl

/-- Settles O16: the two phases of `exec` of a `NEXT`. -/
theorem nextFaultsExactlyBeforeInit : Obligations.NextFaultsExactlyBeforeInit := fun m s =>
  ⟨exec_next_uninit m s, fun hphase => ⟨_, exec_next_ready m s hphase⟩⟩

/-- Settles O17: the bits show the message's length only, and another message changes the engine by
a difference in the accumulator. -/
theorem keystreamIgnoresTheMessage : Obligations.KeystreamIgnoresTheMessage := by
  intro M M' e hlen
  obtain ⟨d, hd⟩ := e.keystream_otherMessage M M' hlen
  constructor
  · rw [Engine.keystream_bits, Engine.keystream_bits, hlen]
  · rw [hd]; rfl

/-- Settles O18: the counts of core clock steps in either mode, shifted by the 64 seeding steps
after an authenticated `INIT`; index 31 of the shift register is the newest bit of its stream. -/
theorem keystreamLengthAndClockCount : Obligations.KeystreamLengthAndClockCount := by
  refine ⟨fun M e => ⟨e.length_keystream M, e.keystream_regs M⟩, ?_⟩
  intro M key iv e hauth
  have hon : (e.init key iv).AUTH = true := (e.init_AUTH key iv).trans hauth
  have hregs := e.init_regs_auth (key := key) hauth
  refine ⟨?_, ?_, fun i hi => ?_⟩
  · rw [Engine.keystream_regs, hon, hregs, ← clockTimes_add]; rfl
  · rw [Engine.keystream_bits, hon, hregs]
    exact List.map_congr_left fun i _ => (outputAt_add _ 64 (2 * i)).symm
  · have hindex : i + 1 + 31 - 32 = i := by omega
    rw [getLsbD_shiftRegAt M hon hi (by decide), Engine.macBit_of_le _ (by omega), hindex, hregs,
      ← outputAt_add, Nat.add_assoc]

/-- Settles O19: the closed form of the accumulator, and after `INIT` the seed bits with the stream
through the shift register. -/
theorem tagClosedForm : Obligations.TagClosedForm := by
  refine ⟨fun M e hon j _ => Engine.keystream_A_bits M hon j, ?_⟩
  intro M key iv e hauth
  have hon : (e.init key iv).AUTH = true := (e.init_AUTH key iv).trans hauth
  have hstream : ∀ i ≤ M.length, ∀ j < 32,
      (shiftRegAt M i (e.init key iv)).getLsbD j = macStream (loaded key iv) (i + j) :=
    fun i hi j hj => by rw [getLsbD_shiftRegAt M hon hi hj, e.init_macBit hauth]
  refine ⟨hstream, fun j hj => ?_⟩
  obtain ⟨hA, -⟩ := e.init_mac_auth key iv hauth hj
  have hsum : ∀ i ∈ List.range M.length,
      (M.getD i false && (shiftRegAt M i (e.init key iv)).getLsbD j) =
        (M.getD i false && macStream (loaded key iv) (i + j)) :=
    fun i hi => by rw [hstream i (List.mem_range.mp hi).le j hj]
  rw [Engine.keystream_A_bits M hon, hA, List.map_congr_left hsum]
  rfl

/-- Settles O20: the fold over a concatenation, by induction on the first part. -/
theorem keystreamContinues : Obligations.KeystreamContinues := fun M M' e =>
  e.keystream_append M M'

/-- Settles O21: the seed bits are those `INIT` leaves in the accumulator. -/
theorem emptyMessageChangesNothing : Obligations.EmptyMessageChangesNothing :=
  ⟨rfl, Engine.keystream_nil, fun key iv e hauth _ hj => (e.init_mac_auth key iv hauth hj).1⟩

/-- Settles O22: the run, the observations and the call, in either phase. -/
theorem keystreamIsItsNexts : Obligations.KeystreamIsItsNexts := by
  intro M s
  refine ⟨fun hphase => ⟨runEvents_pseudoKeystream M hphase, outcome_pseudoKeystream M hphase,
    Engine.keystreamCall_ready _ M hphase⟩, fun hphase hM =>
    ⟨runEvents_pseudoKeystream_uninit M hphase hM, outcome_pseudoKeystream_uninit M hphase hM, ?_⟩⟩
  obtain ⟨m, M, rfl⟩ := List.exists_cons_of_ne_nil hM
  exact Engine.keystreamCall_uninit m _ M hphase

/-- Settles O24, by induction on the events: a quiet one changes nothing and shows no bit, and after
any other the two runs go on from the same state or have stopped alike. -/
theorem quietEventsAreInvisible : Obligations.QuietEventsAreInvisible := by
  intro evs s hphase
  induction evs generalizing s with
  | nil => exact ⟨rfl, rfl⟩
  | cons ev evs ih =>
    by_cases hq : isQuiet ev = true
    · obtain ⟨hrun, hbits⟩ := ih s hphase
      obtain ⟨hperf, hshown⟩ := perform_quiet hq hphase
      rw [List.filter_cons_of_neg (by simp [hq]), runEvents_cons, List.length_cons,
        outcome_cons_next ev evs _ hperf, bitsOf_append, hshown, hperf]
      exact ⟨hrun, hbits⟩
    · rw [List.filter_cons_of_pos (by simp [hq]), runEvents_cons, runEvents_cons,
        List.length_cons, List.length_cons]
      have hnext (t : State) (h : ev.perform s = .next t) :=
        ih t (perform_keeps_ready hphase h)
      exact ⟨andThen_congr fun t h => (hnext t h).1,
        bitsOf_outcome_cons_congr ev fun t h => (hnext t h).2⟩

/-- Settles O35: the run is the `INIT`, the `NEXT` commands from the engine it leaves, and the tag
read; `INIT` has forgotten the earlier engine. -/
theorem repeatedRunsAgree : Obligations.RepeatedRunsAgree := by
  intro key iv M s e
  have hforget := s.engine.init_forgets key iv e
  have hready : (s.withEngine (s.engine.init key iv)).engine.PHASE ≠ .uninit := nofun
  have hrun := runEvents_pseudoKeystream M hready
  have hlen : M.length + 1 = (pseudoKeystream M ++ pseudoTag).length := by
    rw [List.length_append, length_pseudoKeystream]; rfl
  have htag : ((s.withEngine (s.engine.init key iv)).afterKeystream M).engine.PHASE ≠ .uninit :=
    Engine.keystream_ready _ M hready
  calc outcome (M.length + 2)
        (s.withInputs (pseudoConstruct key iv ++ pseudoKeystream M ++ pseudoTag))
    _ = outcome (M.length + 1) ((s.withEngine (s.engine.init key iv)).withInputs
          (pseudoKeystream M ++ pseudoTag)) := outcome_issued_init key iv _ _ s
    _ = ((s.engine.init key iv).keystream M).2.map Observation.bit ++
          [.tag ((s.engine.init key iv).keystream M).1.A] := by
      rw [hlen, outcome_append _ _ hrun, length_pseudoKeystream, outcome_pseudoKeystream M hready]
      exact congrArg (_ ++ ·) (outcome_cons_next .readTag [] 0 (readTag_ready htag))
    _ = _ := by rw [hforget]

/-- Settles O36: the second pass meets the same keystream, and the third the same buffer as the
first. -/
theorem roundTripAndTagConsistency : Obligations.RoundTripAndTagConsistency := by
  intro key iv P e e' e''
  refine ⟨Adapter.combine_combine key iv e e', fun _ => ?_⟩
  rw [Adapter.combine_combine, Adapter.passTag, Adapter.pass_forgets key iv e'' e]
  rfl

/-- Settles O37: combining turns a flipped ciphertext bit into a flipped plaintext bit, and a
flipped message bit adds the shift register of its position to the tag. -/
theorem tagSensitivityIsTheShiftRegister : Obligations.TagSensitivityIsTheShiftRegister := by
  intro key iv P i e hauth hi
  have hon : (e.init key iv).AUTH = true := (e.init_AUTH key iv).trans hauth
  have htag : Adapter.passTag key iv (Adapter.flipBit i P) e =
      Adapter.passTag key iv P e ^^^ shiftRegAt P i (e.init key iv) :=
    Engine.keystream_modify_A P hon hi
  refine ⟨?_, htag, not_congr ?_⟩
  · rw [Adapter.combine_flipBit, Adapter.combine_combine]
  · rw [htag]
    calc Adapter.passTag key iv P e ^^^ shiftRegAt P i (e.init key iv) = Adapter.passTag key iv P e
      _ ↔ Adapter.passTag key iv P e ^^^ shiftRegAt P i (e.init key iv) =
          Adapter.passTag key iv P e ^^^ 0#32 := by rw [BitVec.xor_zero]
      _ ↔ shiftRegAt P i (e.init key iv) = 0 := BitVec.xor_right_inj _

end Sys2Proof.Proofs
end

section
/-! Facts about the tag (spec 43_tag_idle.md R130 to R133): its value in either phase, what a tag read
shows, and the engine while it runs without authentication. -/

namespace Sys2Proof.Machine
open Sys2Proof.Claims

section
variable {e : Engine}

theorem Engine.tag_uninit (h : e.PHASE = .uninit) : e.tag = .fault (.uninitUse .tag) := if_pos h

theorem Engine.tag_ready (h : e.PHASE ≠ .uninit) : e.tag = .next e.A := if_neg h

/-- The engine runs without authentication: a key and IV have been loaded with `AUTH = 0`, and mode
gating (10_state.md R35) holds its MAC registers at zero. -/
def Engine.RunsPlain (e : Engine) : Prop := e.PHASE ≠ .uninit ∧ e.AUTH = false ∧ e.MacGated

theorem Engine.init_runsPlain (key : Key) {iv : IV} (h : iv.getLsbD 0 = false) :
    (e.init key iv).RunsPlain :=
  ⟨nofun, (e.init_AUTH key iv).trans h, e.init_macGated key iv⟩

theorem Engine.next_runsPlain (m : Bit) (h : e.RunsPlain) : (e.next m).1.RunsPlain := by
  obtain ⟨-, hauth, hmac⟩ := h
  refine ⟨?_, (e.next_AUTH m).trans hauth, e.next_macGated m hmac⟩
  rw [Engine.next_PHASE]
  exact nofun

theorem Engine.tag_runsPlain (h : e.RunsPlain) : e.tag = .next 0#32 := by
  obtain ⟨hphase, hauth, hmac⟩ := h
  obtain ⟨hA, -⟩ := hmac hauth
  rw [Engine.tag_ready hphase, hA]
  rfl

end

section
variable {ev : HostEvent} {evs rest : List HostEvent} {s t : State}

theorem observe_readTag (h : s.inputs = .readTag :: rest) : observe s t = [.tag t.engine.A] := by
  simp only [observe, h]

/-- What an event makes of the engine: an `INIT` makes a fresh one, any other leaves it alone or is
a `NEXT`. -/
theorem perform_engine_cases (h : ev.perform s = .next t) :
    t.engine = s.engine ∨
    (isInit ev = true ∧ ∃ key iv, t.engine = s.engine.init key iv) ∨
    (∃ m, t.engine = (s.engine.next m).1) := by
  have hstep : step (s.withInputs [ev]) = .next (t.withInputs []) := by
    rw [step_withInputs_cons, perform_withInputs, h]; rfl
  obtain heq | ⟨c, rest, key, iv, hin, hdec, heq⟩ | ⟨m, -, heq⟩ := step_engine_cases hstep
  · exact .inl heq
  · obtain ⟨rfl, -⟩ := List.cons.inj hin
    exact .inr (.inl ⟨by simp only [isInit, hdec], key, iv, heq⟩)
  · exact .inr (.inr ⟨m, heq⟩)

/-- A property of the engine that every `NEXT` keeps lasts through a run without an `INIT`. -/
theorem runEvents_keeps_engine {P : Engine → Prop} (hnext : ∀ e m, P e → P (e.next m).1)
    (hevs : ∀ ev ∈ evs, isInit ev = false) (hs : P s.engine) (h : runEvents evs s = .next t) :
    P t.engine := by
  induction evs generalizing s with
  | nil =>
    injection h with h
    subst h
    exact hs
  | cons ev evs ih =>
    obtain ⟨hev, hevs⟩ := List.forall_mem_cons.mp hevs
    rw [runEvents_cons] at h
    obtain ⟨u, hperf, hrun⟩ := andThen_eq_next h
    refine ih hevs ?_ hrun
    obtain heq | ⟨hinit, -⟩ | ⟨m, heq⟩ := perform_engine_cases hperf
    · rwa [heq]
    · exact absurd hinit (by simp [hev])
    · rw [heq]
      exact hnext _ m hs

end

/-- A run that begins with `CONSTRUCT` goes on from the engine `INIT` leaves. -/
theorem runEvents_pseudoConstruct (key : Key) (iv : IV) (evs : List HostEvent) (s : State) :
    runEvents (pseudoConstruct key iv ++ evs) s =
      runEvents evs (s.withEngine (s.engine.init key iv)) := by
  rw [pseudoConstruct, List.singleton_append, runEvents_cons, perform_issue]
  rfl

end Sys2Proof.Machine
end

section
/-! Proofs of the statements on the tag and `IDLE` (spec 43_tag_idle.md). -/

namespace Sys2Proof.Proofs
open Sys2Proof.Machine

/-- Settles O26: the `INIT` leaves an engine that runs without authentication, which each later event
keeps. -/
theorem tagIsZeroWithoutAuthentication : Obligations.TagIsZeroWithoutAuthentication := by
  intro key iv evs s t hplain hevs hrun
  rw [runEvents_pseudoConstruct] at hrun
  exact Engine.tag_runsPlain (runEvents_keeps_engine (fun _ m h => Engine.next_runsPlain m h) hevs
    (Engine.init_runsPlain key hplain) hrun)

/-- Settles O23: the meaning of `IDLE` names no phase. -/
theorem idleChangesNothing : Obligations.IdleChangesNothing := fun _ => rfl

/-- Settles O25: a step with a tag read issued is `readTag` on the rest of the queue, in either
phase. -/
theorem tagReadReturnsTheAccumulator : Obligations.TagReadReturnsTheAccumulator := by
  intro s rest hin
  rw [step_readTag hin]
  exact ⟨fun hphase => ⟨Engine.tag_uninit hphase, readTag_uninit _ hphase⟩,
    fun hphase => ⟨Engine.tag_ready hphase, readTag_ready (s := s.withInputs rest) hphase,
      observe_readTag hin⟩⟩

end Sys2Proof.Proofs
end

section
/-! Facts about how a step stops and what a stop does to a run (spec 60_exceptions.md R141 to R149):
which events fault and with what, runs and observations in two parts, and engines side by side. -/

namespace Sys2Proof.Machine

/-! The faults and where they arise (R141). -/

section
variable {c : Command} {s : State} {f : Fault}

/-- A command word is its opcode and its message bit (R62). -/
theorem commandWord_fields (w : CommandWord) :
    commandWord (w.extractLsb' 1 2) (w.getLsbD 0) = w := by
  revert w; decide

/-- The reserved code records the command word it was sampled with (R65, R141). -/
theorem exec_reserved (s : State) (h : c.cw.extractLsb' 1 2 = 0b11#2) :
    exec (decode c) s = .fault (.reservedOp c.cw) := by
  have hword : commandWord 0b11#2 (c.cw.getLsbD 0) = c.cw := h ▸ commandWord_fields c.cw
  rw [decode_of_op_rsvd h]
  exact congrArg (fun w => Host.Outcome.fault (Fault.reservedOp w)) hword

/-- A command faults exactly as a `NEXT` before any `INIT` or as the reserved code. -/
theorem exec_decode_eq_fault_iff : exec (decode c) s = .fault f ↔
    (s.engine.PHASE = .uninit ∧ f = .uninitUse .next ∧ c.cw.extractLsb' 1 2 = 0b10#2) ∨
    (c.cw.extractLsb' 1 2 = 0b11#2 ∧ f = .reservedOp c.cw) := by
  obtain hop | hop | hop | hop := opcode_cases (c.cw.extractLsb' 1 2)
  · have hexec : exec (decode c) s = .next s := by rw [decode_of_op_idle hop]; rfl
    simp [hexec, hop]
  · have hexec : exec (decode c) s = .next (s.withEngine (s.engine.init c.key c.iv)) := by
      rw [decode_of_op_init hop]; rfl
    simp [hexec, hop]
  · rw [decode_of_op_next hop]
    by_cases hphase : s.engine.PHASE = .uninit
    · simp [exec_next_uninit _ s hphase, hphase, hop, eq_comm]
    · simp [exec_next_ready _ s hphase, hphase, hop]
  · simp [exec_reserved s hop, hop, eq_comm]

/-- A tag read faults exactly before any `INIT` (R133). -/
theorem readTag_eq_fault_iff :
    readTag s = .fault f ↔ s.engine.PHASE = .uninit ∧ f = .uninitUse .tag := by
  by_cases hphase : s.engine.PHASE = .uninit
  · simp [readTag_uninit s hphase, hphase, eq_comm]
  · simp [readTag_ready hphase, hphase]

theorem readTag_ne_refused (s : State) (r : Refusal) : readTag s ≠ .refused r := by
  by_cases hphase : s.engine.PHASE = .uninit
  · rw [readTag_uninit s hphase]; exact nofun
  · rw [readTag_ready hphase]; exact nofun

theorem step_ne_refused (s : State) (r : Refusal) : step s ≠ .refused r := by
  match hin : s.inputs with
  | [] => rw [step_nil hin]; exact nofun
  | .command c :: rest => rw [step_command hin]; exact exec_ne_refused _ _ r
  | .readTag :: rest => rw [step_readTag hin]; exact readTag_ne_refused _ r

end

/-! Runs and their observations in two parts (R145, R146, R174). -/

section
variable {k : Nat} {s t : State} {f : Fault}

theorem run_succ_fault (j : Nat) (h : step s = .fault f) : run (j + 1) s = .fault f := by
  rw [run_succ, h, andThen_fault]

theorem outcome_succ_fault (j : Nat) (h : step s = .fault f) : outcome (j + 1) s = [] := by
  simp only [outcome, h]

/-- What the transactions of a run show, followed by what those after it show. -/
theorem outcome_add (j : Nat) (h : run k s = .next t) :
    outcome (k + j) s = outcome k s ++ outcome j t := by
  induction k generalizing s with
  | zero =>
    injection h with h
    rw [h, Nat.zero_add]
    rfl
  | succ k ih =>
    rw [run_succ] at h
    obtain ⟨u, hstep, hrun⟩ := andThen_eq_next h
    rw [Nat.succ_add]
    simp only [outcome, hstep, ih hrun, List.append_assoc]

end

/-! Engines side by side (R149). -/

/-- What only passes the next state on changes no outcome. -/
theorem andThen_pure {σ : Type} (o : Host.Outcome σ Fault Refusal) :
    andThen o (fun s => .next s) = o := by
  cases o <;> rfl

theorem getElem?_stepEngine_same (j : Nat) (es : Engines) :
    (stepEngine j es)[j]? = (es[j]?).map (fun o => andThen o step) :=
  List.getElem?_modify_eq _ j es

theorem getElem?_stepEngine_other {j k : Nat} (h : k ≠ j) (es : Engines) :
    (stepEngine k es)[j]? = es[j]? :=
  List.getElem?_modify_ne _ es h

/-- A turn of one engine followed by the rest of its run is a run of one step more. -/
theorem andThen_step_run (n : Nat) (o : Host.Outcome State Fault Refusal) :
    andThen (andThen o step) (run n) = andThen o (run (n + 1)) := by
  rw [andThen_assoc]
  exact andThen_congr fun s _ => (run_succ n s).symm

end Sys2Proof.Machine
end

section
/-! Proofs of the statements on faults and on several engines (spec 60_exceptions.md). -/

namespace Sys2Proof.Proofs
open Sys2Proof.Machine

/-- Settles O41, by induction on the schedule: a turn of engine `j` is one step more of its run, and
a turn of another leaves it alone. -/
theorem enginesAreIndependent : Obligations.EnginesAreIndependent := by
  intro schedule es j
  induction schedule generalizing es with
  | nil => simp only [runSchedule, List.count_nil, run_zero, andThen_pure, Option.map_id']
  | cons k ks ih =>
    rw [runSchedule, ih]
    by_cases hk : k = j
    · subst hk
      rw [getElem?_stepEngine_same, List.count_cons_self, Option.map_map]
      exact congrArg (Option.map · es[k]?) (funext (andThen_step_run (ks.count k)))
    · rw [getElem?_stepEngine_other hk, List.count_cons_of_ne hk]

/-- Settles O28: by what the host has issued, which is nothing, a command or a tag read. -/
theorem onlyTheTwoFaults : Obligations.OnlyTheTwoFaults := by
  refine ⟨step_ne_refused, fun s f => ?_⟩
  match hin : s.inputs with
  | [] => simp [step_nil hin]
  | .command c :: rest => simp [step_command hin, exec_decode_eq_fault_iff]
  | .readTag :: rest => simp [step_readTag hin, readTag_eq_fault_iff]

/-- Settles O29: the longer run is the first `k` steps and then one that faults, after which nothing
runs and nothing is shown. -/
theorem faultsAreFinal : Obligations.FaultsAreFinal := by
  intro k j s t f hrun hfault
  have hlen : k + 1 + j = k + (j + 1) := by omega
  rw [hlen, run_add, hrun, andThen_next, outcome_add _ hrun, outcome_succ_fault j hfault,
    List.append_nil]
  exact ⟨run_succ_fault j hfault, rfl⟩

end Sys2Proof.Proofs
end

section
/-! The order of use (spec 70_reset_and_hazards.md R162, R163), event by event: an event is legal
exactly when it completes, and the order goes on from the machine it leaves. -/

namespace Sys2Proof.Machine

section
variable {e : Engine}

theorem Engine.ready_of_loaded (h : e.PHASE ≠ .uninit) : e.ready = true := bne_iff_ne.mpr h

theorem Engine.ready_of_uninit (h : e.PHASE = .uninit) : e.ready = false := by
  rw [Engine.ready, h]; rfl

end

/-- A sequence completes exactly when its first part does and, from there, its second. -/
theorem exists_andThen_eq_next_iff {σ τ : Type} {o : Host.Outcome σ Fault Refusal}
    {k : σ → Host.Outcome τ Fault Refusal} :
    (∃ t, andThen o k = .next t) ↔ ∃ s, o = .next s ∧ ∃ t, k s = .next t := by
  constructor
  · rintro ⟨t, h⟩
    obtain ⟨s, ho, hk⟩ := andThen_eq_next h
    exact ⟨s, ho, t, hk⟩
  · rintro ⟨s, rfl, t, hk⟩
    exact ⟨t, hk⟩

/-! The legal orders by their first event. -/

section
variable {c : Command} {ready : Bool} {evs : List HostEvent}

theorem legalFrom_readTag :
    legalFrom ready (.readTag :: evs) = (ready && legalFrom ready evs) := rfl

theorem legalFrom_idle (h : decode c = .idle) :
    legalFrom ready (.command c :: evs) = legalFrom ready evs := by
  simp only [legalFrom, h]

theorem legalFrom_init {key : Key} {iv : IV} (h : decode c = .init key iv) :
    legalFrom ready (.command c :: evs) = legalFrom true evs := by
  simp only [legalFrom, h]

theorem legalFrom_next {m : Bit} (h : decode c = .next m) :
    legalFrom ready (.command c :: evs) = (ready && legalFrom ready evs) := by
  simp only [legalFrom, h]

theorem legalFrom_rsvd {x : Bit} (h : decode c = .rsvd x) :
    legalFrom ready (.command c :: evs) = false := by
  simp only [legalFrom, h]

end

/-! The instructions that look at no phase (R65, R134). -/

theorem exec_idle (s : State) : exec .idle s = .next s := rfl

theorem exec_rsvd (x : Bit) (s : State) :
    exec (.rsvd x) s = .fault (.reservedOp (commandWord 0b11#2 x)) := rfl

/-- The first event of a legal order completes, and the rest is legal from the machine it leaves. -/
theorem legalFrom_cons_iff (ev : HostEvent) (evs : List HostEvent) (s : State) :
    legalFrom s.engine.ready (ev :: evs) = true ↔
      ∃ t, ev.perform s = .next t ∧ legalFrom t.engine.ready evs = true := by
  cases ev with
  | readTag =>
    show _ ↔ ∃ t, readTag s = .next t ∧ _
    rw [legalFrom_readTag]
    by_cases hphase : s.engine.PHASE = .uninit
    · simp [readTag_uninit s hphase, Engine.ready_of_uninit hphase]
    · simp [readTag_ready hphase, Engine.ready_of_loaded hphase]
  | command c =>
    show _ ↔ ∃ t, exec (decode c) s = .next t ∧ _
    cases hdec : decode c with
    | idle => simp [legalFrom_idle hdec, exec_idle]
    | init key iv =>
      have hready : (s.engine.init key iv).ready = true := rfl
      simp [legalFrom_init hdec, exec_init, hready]
    | next m =>
      rw [legalFrom_next hdec]
      by_cases hphase : s.engine.PHASE = .uninit
      · simp [exec_next_uninit m s hphase, Engine.ready_of_uninit hphase]
      · have hready : (s.engine.next m).1.ready = true := by
          rw [Engine.ready, Engine.next_PHASE]; rfl
        simp [exec_next_ready m s hphase, Engine.ready_of_loaded hphase, hready]
    | rsvd x => simp [legalFrom_rsvd hdec, exec_rsvd]

end Sys2Proof.Machine
end

section
/-! Proofs of the statements on reset and on the order of use (spec 70_reset_and_hazards.md). -/

namespace Sys2Proof.Proofs
open Sys2Proof.Machine Sys2Proof.Claims

/-- Settles O34, by induction on the events: the run completes exactly when its first event does and
the rest from there, which is how a legal order is made. -/
theorem legalOrdersAreThoseThatComplete : Obligations.LegalOrdersAreThoseThatComplete := by
  intro evs s
  induction evs generalizing s with
  | nil => exact ⟨fun _ => rfl, fun _ => ⟨_, runEvents_nil s⟩⟩
  | cons ev evs ih =>
    calc (∃ t, runEvents (ev :: evs) s = .next t)
      _ ↔ ∃ u, ev.perform s = .next u ∧ ∃ t, runEvents evs u = .next t := by
        rw [runEvents_cons]; exact exists_andThen_eq_next_iff
      _ ↔ ∃ u, ev.perform s = .next u ∧ legalFrom u.engine.ready evs = true := by
        simp only [ih]
      _ ↔ legalFrom s.engine.ready (ev :: evs) = true := (legalFrom_cons_iff ev evs s).symm

/-- Settles O32: reset is in `UNINIT`, with nothing in progress and no result presented. -/
theorem resetHasTheInvariants : Obligations.ResetHasTheInvariants :=
  ⟨.inl rfl, nofun, nofun⟩

/-- Settles O43: an edge with reset answers `portReset`, which names the four values. -/
theorem portResetAbandonsTheTransaction : Obligations.PortResetAbandonsTheTransaction :=
  fun T p s hrst => ⟨portReset s, clockEdge_reset T p s hrst, rfl, rfl, rfl, rfl⟩

/-- `CONSTRUCT`, `KEYSTREAM.B` and `TAG` show the keystream and the accumulator of one pass over the
bits of the bytes, whatever engine the pass is computed from. -/
theorem outcome_construct_keystreamBytes_tag (key : Key) (iv : IV) (o : Config.ByteBitOrder)
    (bs : List Byte) (s : State) (e : Engine) :
    outcome (8 * bs.length + 2)
        (s.withInputs (pseudoConstruct key iv ++ pseudoKeystreamBytes o bs ++ pseudoTag)) =
      (Adapter.pass key iv (Adapter.bitsOfBytes o bs) e).2.map Observation.bit ++
        [.tag (Adapter.passTag key iv (Adapter.bitsOfBytes o bs) e)] := by
  have hrun := repeatedRunsAgree key iv (Adapter.bitsOfBytes o bs) s e
  rw [Adapter.length_bitsOfBytes] at hrun
  exact hrun

/-- The tag of the scenario under each byte order (R175), as index-order hex. -/
def scenarioTag : Config.ByteBitOrder → Reg32
  | .msbFirst => (0x8364bc61#32).reverse
  | .lsbFirst => (0xadf17b51#32).reverse

/-- The pass of the scenario from the reset engine, computed: 64 seeding steps and 32 steps of
keystream. -/
theorem pass_scenario (o : Config.ByteBitOrder) :
    (Adapter.pass 0#128 1#96 (Adapter.bitsOfBytes o (Adapter.padMessage [0x41#8]))
        State.reset.engine).2 = scenarioBits ∧
      Adapter.passTag 0#128 1#96 (Adapter.bitsOfBytes o (Adapter.padMessage [0x41#8]))
        State.reset.engine = scenarioTag o := by
  cases o <;> decide +kernel

theorem outcome_scenario (o : Config.ByteBitOrder) (s : State) :
    outcome 18 (s.withInputs (pseudoConstruct 0#128 1#96 ++
        pseudoKeystreamBytes o (Adapter.padMessage [0x41#8]) ++ pseudoTag)) =
      scenarioBits.map Observation.bit ++ [.tag (scenarioTag o)] := by
  obtain ⟨hbits, htag⟩ := pass_scenario o
  rw [← hbits, ← htag]
  exact outcome_construct_keystreamBytes_tag _ _ o (Adapter.padMessage [0x41#8]) s _

/-- Settles O38: the run on any machine shows what one pass from the reset engine gives, and that
pass is computed under both byte orders. -/
theorem concreteScenario : Obligations.ConcreteScenario :=
  have hmsb : Adapter.bitsOfBytes .msbFirst (Adapter.padMessage [0x41#8]) =
      [false, true, false, false, false, false, false, true,
        false, false, false, false, false, false, false, true] := by decide
  ⟨congrArg pseudoKeystream hmsb, outcome_scenario .msbFirst, outcome_scenario .lsbFirst⟩

end Sys2Proof.Proofs
end
